-- ==== Sys2Proof/Word.lean ====
section
/-! DEFINITION. The word types of the block (R8, R37): bytes, command words, bus addresses. -/

namespace Sys2Proof

/-- Every buffer element, status code, received or sent byte and response is 8 bits (R8). -/
abbrev Byte := BitVec 8

/-- A command is one 24-bit word (R37). -/
abbrev CommandWord := BitVec 24

/-- A target address is 7 bits (R8, R40). -/
abbrev BusAddr := BitVec 7

end Sys2Proof
end

