-- ==== Sys2Proof/Syntax.lean ====
section
/-! DEFINITION. The instructions of the block, one constructor for every row of the opcode table (R38, R43), the event
classes, what arrives on the two input ports, and the source lines of the assembler (R51, R94 to R96). -/

namespace Sys2Proof

/-- The block's instructions (R2): the seven commands of the command port with their operands (R38, R40), and the
nineteen bus events of the status port (R43), with the received byte `d` where the class carries one. -/
inductive Instr where
  /-- `START_BUS` (R84). -/
  | startBus
  /-- `BEGIN_WRITE addr` (R85). -/
  | beginWrite (addr : BusAddr)
  /-- `QUEUE_BYTE b` (R86). -/
  | queueByte (b : Byte)
  /-- `END_WRITE WAIT` (`wait` true) or `END_WRITE NOWAIT` (R87). -/
  | endWrite (wait : Bool)
  /-- `REQUEST_READ addr, n` (R88). -/
  | requestRead (addr : BusAddr) (n : Byte)
  /-- `AVAILABLE` (R89). -/
  | available
  /-- `NEXT_BYTE` (R90). -/
  | nextByte
  /-- `BUS_ERROR` (R71). -/
  | busError
  /-- `START`: start sent (R61). -/
  | start
  /-- `MT_SLA_ACK` (R62). -/
  | mtSlaAck
  /-- `MT_SLA_NACK` (R63). -/
  | mtSlaNack
  /-- `MT_DATA_ACK` (R62). -/
  | mtDataAck
  /-- `MT_DATA_NACK` (R64). -/
  | mtDataNack
  /-- `ARB_LOST` (R65). -/
  | arbLost
  /-- `MR_SLA_ACK` (R66). -/
  | mrSlaAck
  /-- `MR_SLA_NACK` (R69). -/
  | mrSlaNack
  /-- `MR_DATA_ACK`, carries `d` (R67). -/
  | mrDataAck (d : Byte)
  /-- `MR_DATA_NACK`, carries `d` (R68). -/
  | mrDataNack (d : Byte)
  /-- `SR_SLA_ACK` (R73). -/
  | srSlaAck
  /-- `SR_DATA_ACK`, carries `d` (R74). -/
  | srDataAck (d : Byte)
  /-- `SR_DATA_NACK`, carries `d` (R75). -/
  | srDataNack (d : Byte)
  /-- `SR_STOP` (R76). -/
  | srStop
  /-- `ST_SLA_ACK` (R77). -/
  | stSlaAck
  /-- `ST_DATA_ACK` (R78). -/
  | stDataAck
  /-- `ST_DATA_NACK` (R79). -/
  | stDataNack
  /-- `ST_LAST_DATA` (R79). -/
  | stLastData
  deriving DecidableEq, Repr

/-- The nineteen event classes of R43. -/
inductive EventClass where
  | busError | start
  | mtSlaAck | mtSlaNack | mtDataAck | mtDataNack
  | arbLost
  | mrSlaAck | mrSlaNack | mrDataAck | mrDataNack
  | srSlaAck | srDataAck | srDataNack | srStop
  | stSlaAck | stDataAck | stDataNack | stLastData
  deriving DecidableEq, Repr

/-- One row of `STATUS_MAP` (R42, R44): a status code `s` belongs to `cls` when `s &&& mask = code`. -/
structure StatusRow where
  mask : Byte
  code : Byte
  cls  : EventClass
  deriving DecidableEq, Repr

/-- What one bus event brings: the status code and the content of the received-byte input (R42). -/
structure BusEvent where
  status : Byte
  data   : Byte
  deriving DecidableEq, Repr

/-- What arrives on an input port of the block: a command word (R37) or a bus event (R42). -/
inductive PortWord where
  | command (c : CommandWord)
  | event (e : BusEvent)
  deriving DecidableEq, Repr

/-- A line of the assembler with its numbers as written (R51), the pseudo-instructions among them (R94 to R96). -/
inductive AsmLine where
  | startBus
  | beginWrite (addr : Nat)
  | queueByte (byte : Nat)
  | endWrite (wait : Bool)
  | requestRead (addr count : Nat)
  | available
  | nextByte
  | queueBytes (bytes : List Nat)
  | writeRegister (r v : Nat)
  | readRegister (r : Nat)
  deriving DecidableEq, Repr

end Sys2Proof
end

