-- ==== Sys2Proof/WellFormed.lean ====
section
/-! DEFINITION. What is well formed, each as a Bool: a command word by its FIELDS (R37 to R39, independently of the
decoder's masks), an assembler line by its operand ranges (R51), a status map by its rows not overlapping (R42).
An `Instr` needs no check: its operands' types have exactly the widths of R40, so every term is an instruction. -/

namespace Sys2Proof

/-- The `width` bits of a command word from bit `lo` up, as a number (R11, `v[hi:lo]`). -/
def wordField (c : CommandWord) (lo width : Nat) : Nat := c.toNat / 2 ^ lo % 2 ^ width

/-- R39: an opcode of 1..7, and every field that must be 0 for that opcode is 0. `W` belongs to `END_WRITE` (4), `ADDR`
to `BEGIN_WRITE` (2) and `REQUEST_READ` (5), `IMM` to `QUEUE_BYTE` (3) and `REQUEST_READ` (5) (R37, R38). -/
def commandWf (c : CommandWord) : Bool :=
  let op := wordField c 20 4
  (1 ≤ op && op ≤ 7) && wordField c 15 4 == 0
    && (wordField c 19 1 == 0 || op == 4)
    && (wordField c 8 7 == 0 || op == 2 || op == 5)
    && (wordField c 0 8 == 0 || op == 3 || op == 5)

/-- R51: an operand out of its range is an assembly error. -/
def AsmLine.wf : AsmLine → Bool
  | .startBus => true
  | .beginWrite addr => addr ≤ 0x7F
  | .queueByte byte => byte ≤ 0xFF
  | .endWrite _ => true
  | .requestRead addr count => addr ≤ 0x7F && count ≤ 0xFF
  | .available => true
  | .nextByte => true
  | .queueBytes bytes => bytes.all (· ≤ 0xFF)
  | .writeRegister r v => r ≤ 0xFF && v ≤ 0xFF
  | .readRegister r => r ≤ 0xFF

/-- Two rows of a status map share no code: some bit both masks read differs. -/
def StatusRow.disjoint (a b : StatusRow) : Bool := (a.mask &&& b.mask &&& (a.code ^^^ b.code)) != 0

/-- A status map is a map (R42): its rows do not overlap. -/
def statusMapWf : List StatusRow → Bool
  | [] => true
  | r :: rest => rest.all (r.disjoint ·) && statusMapWf rest

end Sys2Proof
end

