-- ==== Sys2Proof/Decode.lean ====
section
/-! DEFINITION. The decoder of the two input ports (R37 to R45), total and rejecting by name, then the encoder, written
from the same tables. -/

namespace Sys2Proof

/-- Why an input is no instruction. -/
inductive DecodeError where
  /-- The word matches no row of R38 (R39). -/
  | illegalCommand (c : CommandWord)
  /-- The status map has no class for the code: `Unmapped` (R44, R45). -/
  | unmapped (s : Byte)
  deriving DecidableEq, Repr

/-- The seven command mnemonics of R38. -/
inductive CommandOp where
  | startBus | beginWrite | queueByte | endWrite | requestRead | available | nextByte
  deriving DecidableEq, Repr

/-- A row of the table of R38. -/
structure CommandRow where
  op      : CommandOp
  pattern : CommandWord
  mask    : CommandWord
  deriving DecidableEq, Repr

/-- The table of R38, row by row. -/
def commandTable : List CommandRow :=
  [⟨.startBus, 0x100000, 0xFFFFFF⟩,
   ⟨.beginWrite, 0x200000, 0xFF80FF⟩,
   ⟨.queueByte, 0x300000, 0xFFFF00⟩,
   ⟨.endWrite, 0x400000, 0xF7FFFF⟩,
   ⟨.requestRead, 0x500000, 0xFF8000⟩,
   ⟨.available, 0x600000, 0xFFFFFF⟩,
   ⟨.nextByte, 0x700000, 0xFFFFFF⟩]

/-- `addr = c[14:8]` (R40). -/
def CommandWord.addr (c : CommandWord) : BusAddr := c.extractLsb' 8 7

/-- `imm = c[7:0]` (R40). -/
def CommandWord.imm (c : CommandWord) : Byte := c.extractLsb' 0 8

/-- `w = c[19]` (R40). -/
def CommandWord.waitFlag (c : CommandWord) : Bool := c.getLsbD 19

/-- The command of a mnemonic with the operands of the word (R40). -/
def CommandOp.instr (c : CommandWord) : CommandOp → Instr
  | .startBus => .startBus
  | .beginWrite => .beginWrite (CommandWord.addr c)
  | .queueByte => .queueByte (CommandWord.imm c)
  | .endWrite => .endWrite (CommandWord.waitFlag c)
  | .requestRead => .requestRead (CommandWord.addr c) (CommandWord.imm c)
  | .available => .available
  | .nextByte => .nextByte

/-- A word is command M exactly when `(c & mask_M) == match_M` (R38); every other word is illegal (R39). -/
def decodeCommand (c : CommandWord) : Except DecodeError Instr :=
  match commandTable.find? (fun r => c &&& r.mask == r.pattern) with
  | some r => .ok (r.op.instr c)
  | none => .error (.illegalCommand c)

/-- The default `STATUS_MAP` of R44: the class is selected by `s[7:3]`, `s[2:0]` is ignored. The codes are the spec's,
which took them from general knowledge (log 8). -/
def defaultStatusMap : List StatusRow :=
  [⟨0xF8, 0x00, .busError⟩,
   ⟨0xF8, 0x08, .start⟩,
   ⟨0xF8, 0x18, .mtSlaAck⟩,
   ⟨0xF8, 0x20, .mtSlaNack⟩,
   ⟨0xF8, 0x28, .mtDataAck⟩,
   ⟨0xF8, 0x30, .mtDataNack⟩,
   ⟨0xF8, 0x38, .arbLost⟩,
   ⟨0xF8, 0x40, .mrSlaAck⟩,
   ⟨0xF8, 0x48, .mrSlaNack⟩,
   ⟨0xF8, 0x50, .mrDataAck⟩,
   ⟨0xF8, 0x58, .mrDataNack⟩,
   ⟨0xF8, 0x60, .srSlaAck⟩,
   ⟨0xF8, 0x80, .srDataAck⟩,
   ⟨0xF8, 0x88, .srDataNack⟩,
   ⟨0xF8, 0xA0, .srStop⟩,
   ⟨0xF8, 0xA8, .stSlaAck⟩,
   ⟨0xF8, 0xB8, .stDataAck⟩,
   ⟨0xF8, 0xC0, .stDataNack⟩,
   ⟨0xF8, 0xC8, .stLastData⟩]

/-- `STATUS_MAP(s)` (R42): the class of a status code, `none` for `Unmapped`. -/
def statusClass (rows : List StatusRow) (s : Byte) : Option EventClass :=
  (rows.find? (fun r => s &&& r.mask == r.code)).map StatusRow.cls

/-- The event instruction of a class; `d` is read only by the classes that carry it (R43, R58). -/
def EventClass.instr (d : Byte) : EventClass → Instr
  | .busError => .busError
  | .start => .start
  | .mtSlaAck => .mtSlaAck
  | .mtSlaNack => .mtSlaNack
  | .mtDataAck => .mtDataAck
  | .mtDataNack => .mtDataNack
  | .arbLost => .arbLost
  | .mrSlaAck => .mrSlaAck
  | .mrSlaNack => .mrSlaNack
  | .mrDataAck => .mrDataAck d
  | .mrDataNack => .mrDataNack d
  | .srSlaAck => .srSlaAck
  | .srDataAck => .srDataAck d
  | .srDataNack => .srDataNack d
  | .srStop => .srStop
  | .stSlaAck => .stSlaAck
  | .stDataAck => .stDataAck
  | .stDataNack => .stDataNack
  | .stLastData => .stLastData

/-- Decoding a bus event (R42, R45). -/
def decodeEvent (rows : List StatusRow) (e : BusEvent) : Except DecodeError Instr :=
  match statusClass rows e.status with
  | some cls => .ok (cls.instr e.data)
  | none => .error (.unmapped e.status)

/-- Decoding whatever arrives on a port. -/
def decode (rows : List StatusRow) : PortWord → Except DecodeError Instr
  | .command c => decodeCommand c
  | .event e => decodeEvent rows e

/-- A command word put together from its fields, the high ones first, `RSV` = 0 (R37). -/
def packCommand (op : BitVec 4) (w : Bool) (addr : BusAddr) (imm : Byte) : CommandWord :=
  op ++ BitVec.ofBool w ++ 0#4 ++ addr ++ imm

/-- The event a class is delivered by under the default map: its code of R44 with the ignored bits 0. -/
def EventClass.code : EventClass → Byte
  | .busError => 0x00
  | .start => 0x08
  | .mtSlaAck => 0x18
  | .mtSlaNack => 0x20
  | .mtDataAck => 0x28
  | .mtDataNack => 0x30
  | .arbLost => 0x38
  | .mrSlaAck => 0x40
  | .mrSlaNack => 0x48
  | .mrDataAck => 0x50
  | .mrDataNack => 0x58
  | .srSlaAck => 0x60
  | .srDataAck => 0x80
  | .srDataNack => 0x88
  | .srStop => 0xA0
  | .stSlaAck => 0xA8
  | .stDataAck => 0xB8
  | .stDataNack => 0xC0
  | .stLastData => 0xC8

/-- The word of `START_BUS` (R84). -/
def startBusWord : CommandWord := packCommand 1 false 0 0

/-- The word of `BEGIN_WRITE addr` (R85). -/
def beginWriteWord (addr : BusAddr) : CommandWord := packCommand 2 false addr 0

/-- The word of `QUEUE_BYTE b` (R86). -/
def queueByteWord (b : Byte) : CommandWord := packCommand 3 false 0 b

/-- The word of `END_WRITE WAIT` or `END_WRITE NOWAIT` (R87). -/
def endWriteWord (wait : Bool) : CommandWord := packCommand 4 wait 0 0

/-- The word of `REQUEST_READ addr, n` (R88). -/
def requestReadWord (addr : BusAddr) (n : Byte) : CommandWord := packCommand 5 false addr n

/-- The word of `AVAILABLE` (R89). -/
def availableWord : CommandWord := packCommand 6 false 0 0

/-- The word of `NEXT_BYTE` (R90). -/
def nextByteWord : CommandWord := packCommand 7 false 0 0

/-- The encoder: what is put on a port to have an instruction run, under the default status map. A byte no class
carries is written 0. -/
def encode : Instr → PortWord
  | .startBus => .command startBusWord
  | .beginWrite addr => .command (beginWriteWord addr)
  | .queueByte b => .command (queueByteWord b)
  | .endWrite wait => .command (endWriteWord wait)
  | .requestRead addr n => .command (requestReadWord addr n)
  | .available => .command availableWord
  | .nextByte => .command nextByteWord
  | .busError => .event ⟨EventClass.code .busError, 0⟩
  | .start => .event ⟨EventClass.code .start, 0⟩
  | .mtSlaAck => .event ⟨EventClass.code .mtSlaAck, 0⟩
  | .mtSlaNack => .event ⟨EventClass.code .mtSlaNack, 0⟩
  | .mtDataAck => .event ⟨EventClass.code .mtDataAck, 0⟩
  | .mtDataNack => .event ⟨EventClass.code .mtDataNack, 0⟩
  | .arbLost => .event ⟨EventClass.code .arbLost, 0⟩
  | .mrSlaAck => .event ⟨EventClass.code .mrSlaAck, 0⟩
  | .mrSlaNack => .event ⟨EventClass.code .mrSlaNack, 0⟩
  | .mrDataAck d => .event ⟨EventClass.code .mrDataAck, d⟩
  | .mrDataNack d => .event ⟨EventClass.code .mrDataNack, d⟩
  | .srSlaAck => .event ⟨EventClass.code .srSlaAck, 0⟩
  | .srDataAck d => .event ⟨EventClass.code .srDataAck, d⟩
  | .srDataNack d => .event ⟨EventClass.code .srDataNack, d⟩
  | .srStop => .event ⟨EventClass.code .srStop, 0⟩
  | .stSlaAck => .event ⟨EventClass.code .stSlaAck, 0⟩
  | .stDataAck => .event ⟨EventClass.code .stDataAck, 0⟩
  | .stDataNack => .event ⟨EventClass.code .stDataNack, 0⟩
  | .stLastData => .event ⟨EventClass.code .stLastData, 0⟩

/-- The port word whose bits are `w`, numbered as the opcode table numbers them: 24 bits are a command word, 8 bits a
status code with a received byte of 0, and 16 bits a status code with the received byte in bits 15..8 (log 15). -/
def tablePortWord (nbits w : Nat) : Option PortWord :=
  if nbits = 24 then some (.command (BitVec.ofNat 24 w))
  else if nbits = 8 then some (.event ⟨BitVec.ofNat 8 w, 0⟩)
  else if nbits = 16 then some (.event ⟨BitVec.ofNat 8 w, BitVec.ofNat 8 (w / 256)⟩)
  else none

/-- The instruction the decoder reads from an opcode-table word, under the default status map. -/
def decodeTableWord (nbits w : Nat) : Option Instr :=
  match tablePortWord nbits w with
  | some p => (decode defaultStatusMap p).toOption
  | none => none

end Sys2Proof
end

