-- ==== Sys2Proof/Config.lean ====
section
/-! DEFINITION. What an implementation fixes (R7) and the free values: the `OPEN` parameters and every draw of the spec
are constants with no body, so no proof can rest on a value of them. -/

namespace Sys2Proof

/-- Who takes the next step (R9): the foreground or the shift-register peripheral. ENV acts inside their steps. -/
inductive Agent where
  | fg | periph
  deriving DecidableEq, Repr, Inhabited

namespace Config

/-- `CAP_M`, the capacity of the master buffer, 32 for this hardware (R7, U3). -/
def capM : Nat := 32

/-- The default of `CAP_SR`, the capacity of the slave-receive buffer (R7, D9); the capacity itself is a field of the
buffer, of range 1..32 (log 7). -/
def defaultCapSR : Nat := 32

/-- The default of `CAP_ST`, the capacity of the slave-transmit buffer (R7, D9; log 7). -/
def defaultCapST : Nat := 32

/-- `F_CPU`, `OPEN` (R7; log 12). -/
opaque fCpu : Nat

/-- `F_SCL`, `OPEN` (R7; log 12). -/
opaque fScl : Nat

/-- `DIVISOR_FN`, `OPEN`: the clock divisor from `F_CPU` and `F_SCL` (R7, D32; log 12). -/
opaque divisorFn : Nat → Nat → Nat

/-- `PERIPHERAL_ADDR`, `OPEN`: the address the register adapter uses (R7, D33; log 12). -/
opaque peripheralAddr : BusAddr

/-- The n-th free byte: what `END_WRITE NOWAIT` responds (R87, U1; log 9). -/
opaque freeByte : Nat → Byte

/-- The n-th free byte list: what `TX_SOURCE` answers where the state lists no answer of the environment (R77, U13;
log 9). -/
opaque freeReply : Nat → List Byte

/-- The n-th free choice of who steps next, where the state lists none (R9, U14; log 1). -/
opaque freeTurn : Nat → Agent

end Config

end Sys2Proof
end

