-- ==== Sys2Proof/Machine/State.lean ====
section
/-! DEFINITION. The state of the block as plain data (R15), with what the other agents hold (R9, R14), the reasons a
step can stop, and the state after reset (R112). -/

namespace Sys2Proof.Machine

/-- BusState (R16), in the order of its codes (R48): READY, MASTER_TRANSMIT, MASTER_RECEIVE, SLAVE_TRANSMIT,
SLAVE_RECEIVE. -/
inductive BusState where
  | ready | mt | mr | st | sr
  deriving DecidableEq, Repr

/-- TxnError (R18), in the order of its codes (R49). No rule writes `lengthTooLong` (R91, C1). -/
inductive TxnError where
  | none | addressNack | dataNack | arbitrationLost | busError | lengthTooLong
  deriving DecidableEq, Repr

/-- `fg_phase` (R15): whether FG is inside a waiting command. -/
inductive FgPhase where
  | idle | waitWrite | waitRead
  deriving DecidableEq, Repr

/-- The five bus actions (R46). -/
inductive BusAct where
  | start | stop | ack | nack | release
  deriving DecidableEq, Repr

/-- The data of one buffer: (index, byte) pairs, rising by index; an index not listed holds no value (R15 "unset";
log 6). -/
abbrev Memory := List Host.Cell

/-- A byte buffer (R20): its capacity `CAP`, its data, `len` (the write position) and `cur` (the read position). -/
structure Buf where
  cap  : Nat
  data : Memory
  len  : Nat
  cur  : Nat
  deriving DecidableEq, Repr

/-- The block's three address spaces (R27). -/
inductive Space where
  | master | slaveRx | slaveTx
  deriving DecidableEq, Repr

/-- One thing the block puts out: a bus action with the byte to send (R46), a slave-receive notification (R76), a
response to FG (R41). -/
inductive Output where
  | bus (act : BusAct) (tx : Option Byte)
  | notify (bytes : List Byte)
  | respond (v : Byte)
  deriving DecidableEq, Repr

/-- The fault record, reason and info (R100). It is STATE: raising one is a next state (R101). -/
inductive FaultRecord where
  | illegalCommand (c : CommandWord)
  | queueOutsideWrite (c : CommandWord)
  | endWithoutBegin (c : CommandWord)
  | readInsideWrite (c : CommandWord)
  | notStarted (c : CommandWord)
  | restartWhileBusy (was : BusState)
  | masterBufferRace (c : CommandWord)
  | unexpectedEvent (was : BusState) (cls : EventClass)
  | ackMismatch (was : BusState) (cls : EventClass) (ackEn : Bool)
  deriving DecidableEq, Repr

/-- The refusal record, reason and info (R100, R45). It is STATE: refusing is a next state (R101). -/
inductive RefusalRecord where
  | unknownStatus (s : Byte)
  deriving DecidableEq, Repr

/-- Why a step stops with a fault outcome. -/
inductive Fault where
  /-- Raised by `step` in a state whose fault record is set: no step of any agent is enabled (R101). Safe: the block
  makes no step there either. -/
  | stopped (r : FaultRecord)
  /-- Raised by a buffer read at an index below `len` that nothing has written (R15, R113; log 6). Safe: the model stops,
  and no reachable step reads such a byte. -/
  | unsetByte (space : Space)
  deriving DecidableEq, Repr

/-- Why a step is refused. -/
inductive Refusal where
  /-- An instruction with no meaning yet. Safe: the model stops. -/
  | notModelled (mnemonic : String)
  /-- Answered by `step` in a state whose refusal record is set: no step of any agent is enabled (R101). Safe: the
  block makes no step there either. -/
  | stopped (r : RefusalRecord)
  deriving DecidableEq, Repr

/-- The state record of R15, then what FG holds (R14), the status map (R7) and the model's own fields: what PERIPH and
ENV have ready, the choices of who steps next, and the count of free values drawn. -/
structure State where
  /-- The bus state machine's state. -/
  state     : BusState
  /-- The latched transaction error. -/
  err       : TxnError
  /-- The target address `BEGIN_WRITE` recorded. -/
  tgt       : BusAddr
  /-- A write is open between `BEGIN_WRITE` and `END_WRITE`. -/
  wrOpen    : Bool
  /-- The address-plus-direction byte of the master transaction. -/
  sla       : Byte
  /-- The number of bytes the master read expects (R21). -/
  mrWant    : Nat
  mbuf      : Buf
  srbuf     : Buf
  stbuf     : Buf
  /-- The latched acknowledge decision (R22). -/
  ackEn     : Bool
  /-- The bus peripheral and its interrupt are enabled. -/
  enabled   : Bool
  /-- The bus clock divisor; no rule reads it. -/
  divisor   : Nat
  fgPhase   : FgPhase
  fault     : Option FaultRecord
  refused   : Option RefusalRecord
  /-- Everything put out, oldest first: `buslog`, `notifylog` and the responses, in one order (R15, R76; log 10). -/
  outlog    : List Output
  /-- FG's list of commands (R14; log 2). -/
  program   : List CommandWord
  /-- FG's index of the next command (R14). -/
  fpc       : Nat
  /-- `STATUS_MAP` (R7; log 8). -/
  statusMap : List StatusRow
  /-- The bus events PERIPH has ready, next first (log 3). -/
  events    : List BusEvent
  /-- The answers ENV has ready for `TX_SOURCE`, next first (log 9). -/
  txReplies : List (List Byte)
  /-- Who steps next, next first (log 1). -/
  turns     : List Agent
  /-- How many free values have been drawn (log 11). -/
  draws     : Nat
  deriving DecidableEq, Repr

/-- A buffer at reset: empty, its data unset (R112). -/
def Buf.empty (cap : Nat) : Buf := { cap := cap, data := [], len := 0, cur := 0 }

/-- The block right after reset (R112, the reset column of R15). `tgt`, `sla` and `divisor` are unset in the spec and 0
here (log 5); no program, event, answer or turn is listed (logs 1, 2, 3, 9). -/
def State.reset : State where
  state     := .ready
  err       := .none
  tgt       := 0
  wrOpen    := false
  sla       := 0
  mrWant    := 0
  mbuf      := Buf.empty Config.capM
  srbuf     := Buf.empty Config.defaultCapSR
  stbuf     := Buf.empty Config.defaultCapST
  ackEn     := false
  enabled   := false
  divisor   := 0
  fgPhase   := .idle
  fault     := Option.none
  refused   := Option.none
  outlog    := []
  program   := []
  fpc       := 0
  statusMap := defaultStatusMap
  events    := []
  txReplies := []
  turns     := []
  draws     := 0

end Sys2Proof.Machine
end

