-- ==== Sys2Proof/Machine/Flags.lean ====
section
/-! DEFINITION. The flags and codes: what each bus action latches (R59), when a following byte is acknowledged, which
latch and which states an event needs (R43, R60), and the numeric codes and the status word (R25, R46 to R49, R100). -/

namespace Sys2Proof.Machine

/-- R59: `ack_en <- 0 if a = NACK else 1`. -/
def ackAfter : BusAct → Bool
  | .nack => false
  | .start => true
  | .stop => true
  | .ack => true
  | .release => true

/-- Arm acknowledge while more is to follow, else negative-acknowledge (R66, R74, R77). -/
def armFor (more : Bool) : BusAct := if more then .ack else .nack

/-- R60: the `ack_en` a data event must agree with; `none` where there is no check. -/
def latchRequired : EventClass → Option Bool
  | .mrDataAck => some true
  | .mrDataNack => some false
  | .srDataAck => some true
  | .srDataNack => some false
  | .stDataAck => some true
  | .stLastData => some false
  | .busError => none
  | .start => none
  | .mtSlaAck => none
  | .mtSlaNack => none
  | .mtDataAck => none
  | .mtDataNack => none
  | .arbLost => none
  | .mrSlaAck => none
  | .mrSlaNack => none
  | .srSlaAck => none
  | .srStop => none
  | .stSlaAck => none
  | .stDataNack => none

/-- R43: the states a class is accepted in. -/
def acceptedIn : EventClass → List BusState
  | .start => [.mt, .mr]
  | .mtSlaAck => [.mt]
  | .mtSlaNack => [.mt]
  | .mtDataAck => [.mt]
  | .mtDataNack => [.mt]
  | .arbLost => [.mt, .mr]
  | .mrSlaAck => [.mr]
  | .mrSlaNack => [.mr]
  | .mrDataAck => [.mr]
  | .mrDataNack => [.mr]
  | .srSlaAck => [.ready]
  | .srDataAck => [.sr]
  | .srDataNack => [.sr]
  | .srStop => [.sr]
  | .stSlaAck => [.ready]
  | .stDataAck => [.st]
  | .stDataNack => [.st]
  | .stLastData => [.st]
  | .busError => [.ready, .mt, .mr, .st, .sr]

/-- The codes of R48. -/
def BusState.code : BusState → BitVec 3
  | .ready => 0
  | .mt => 1
  | .mr => 2
  | .st => 3
  | .sr => 4

/-- The codes of R49. -/
def TxnError.code : TxnError → BitVec 3
  | .none => 0
  | .addressNack => 1
  | .dataNack => 2
  | .arbitrationLost => 3
  | .busError => 4
  | .lengthTooLong => 5

/-- The codes of R46. -/
def BusAct.code : BusAct → Nat
  | .start => 1
  | .stop => 2
  | .ack => 3
  | .nack => 4
  | .release => 5

/-- The control inputs `(sta, sto, ea)` an action drives (R47; the bits are the spec's general knowledge, log 16). -/
def BusAct.control : BusAct → Bool × Bool × Bool
  | .start => (true, false, true)
  | .stop => (false, true, true)
  | .ack => (false, false, true)
  | .nack => (false, false, false)
  | .release => (false, false, true)

/-- The fault codes of R100. -/
def FaultRecord.code : FaultRecord → Nat
  | .illegalCommand _ => 1
  | .queueOutsideWrite _ => 2
  | .endWithoutBegin _ => 3
  | .readInsideWrite _ => 4
  | .notStarted _ => 5
  | .restartWhileBusy _ => 6
  | .masterBufferRace _ => 7
  | .unexpectedEvent _ _ => 8
  | .ackMismatch _ _ _ => 9

/-- The status word of R25: `STAT[2:0]` the code of `state`, `STAT[3]` 0, `STAT[6:4]` the code of `err`, `STAT[7]`
`enabled`. Reading it is no step and changes nothing. -/
def State.stat (s : State) : Byte :=
  (BitVec.ofBool s.enabled).zeroExtend 8 <<< 7 ||| s.err.code.zeroExtend 8 <<< 4 ||| s.state.code.zeroExtend 8

end Sys2Proof.Machine
end

