-- ==== Sys2Proof/Machine/Operands.lean ====
section
/-! DEFINITION. Operand forms: the address byte (R50), the clamped count (R88), the 8-bit responses (R41). -/

namespace Sys2Proof.Machine

/-- The SLA byte `(addr << 1) | rw`, rw = 0 for a write and 1 for a read (R50, R19; log 16). -/
def slaByte (addr : BusAddr) (read : Bool) : Byte :=
  addr.zeroExtend 8 <<< 1 ||| (BitVec.ofBool read).zeroExtend 8

/-- The clamped count `min(n, CAP_M)` of a read (R88), the capacity taken from the buffer. -/
def clampCount (n : Byte) (cap : Nat) : Nat := min n.toNat cap

/-- A count as an 8-bit response (R41). A count of 0..32 fits (log 17). -/
def countByte (n : Nat) : Byte := BitVec.ofNat 8 n

/-- `zext_8(full)` (R86). -/
def fullByte (full : Bool) : Byte := (BitVec.ofBool full).zeroExtend 8

/-- `zext_8(code(err))` is formed from a 3-bit code (R41, R82). -/
def codeByte (c : BitVec 3) : Byte := c.zeroExtend 8

end Sys2Proof.Machine
end

