-- ==== Sys2Proof/Machine/Ops.lean ====
section
/-! DEFINITION. The named operations: the data of a buffer, the buffer primitives (R52 to R55), what is put out (R46,
R59, R76, R41), raising a fault and refusing (R101), the draws (R11), and the dispatch every event goes through (R58). -/

namespace Sys2Proof.Machine

/-! ## The data of a buffer -/

/-- The byte at an index; no value where nothing is listed (log 6). -/
def Memory.read : Memory → Nat → Option Byte
  | [], _ => none
  | c :: rest, i => if c.1 = i then some c.2 else Memory.read rest i

/-- Write a byte at an index, keeping the list rising. -/
def Memory.write : Memory → Nat → Byte → Memory
  | [], i, b => [(i, b)]
  | c :: rest, i, b =>
    if c.1 < i then c :: Memory.write rest i b
    else if c.1 = i then (i, b) :: rest
    else (i, b) :: c :: rest

/-- The canonical form: indices strictly rising. (No entry can equal what an unlisted index reads as: that is no
value.) -/
def Memory.wf : Memory → Bool
  | [] => true
  | c :: rest =>
    (match rest with
      | [] => true
      | d :: _ => decide (c.1 < d.1)) && Memory.wf rest

/-- The `n` bytes from index `i` up, if all of them hold a value. -/
def Memory.readRange (m : Memory) : Nat → Nat → Option (List Byte)
  | _, 0 => some []
  | i, n + 1 =>
    match m.read i, Memory.readRange m (i + 1) n with
    | some b, some bs => some (b :: bs)
    | _, _ => none

/-! ## The buffer primitives -/

/-- `BufWrite(B, b) -> full` (R52): append at `len` if capacity allows, else nothing; the Bool is `full`. -/
def Buf.bufWrite (B : Buf) (b : Byte) : Buf × Bool :=
  if B.len < B.cap then ({ B with data := B.data.write B.len b, len := B.len + 1 }, false)
  else (B, true)

/-- `BufRead(B) -> byte` (R53): the next unread byte, advancing `cur`, or the sentinel 0x00 with `B` unchanged; `none`
where the byte to read was never written (log 6). -/
def Buf.bufRead (B : Buf) : Option (Byte × Buf) :=
  if B.cur < B.len then
    match B.data.read B.cur with
    | some b => some (b, { B with cur := B.cur + 1 })
    | none => none
  else some (0x00, B)

/-- `BufReset(B)` (R54): zero length and cursor; the data keeps its old bytes. -/
def Buf.bufReset (B : Buf) : Buf := { B with len := 0, cur := 0 }

/-- `BufAvail(B) -> count` (R55). -/
def Buf.bufAvail (B : Buf) : Nat := B.len - B.cur

/-- `for b in L: BufWrite(B, b)` (R77): bytes past the capacity are dropped. -/
def Buf.fill : Buf → List Byte → Buf
  | B, [] => B
  | B, b :: bs => Buf.fill (B.bufWrite b).1 bs

/-- `B.data[0 .. B.len-1]`, the held bytes in order (R76); `none` where one was never written (log 6). -/
def Buf.held (B : Buf) : Option (List Byte) := B.data.readRange 0 B.len

/-- The buffer of an address space (R27). -/
def State.buf (s : State) : Space → Buf
  | .master => s.mbuf
  | .slaveRx => s.srbuf
  | .slaveTx => s.stbuf

/-- The model's read of one byte of memory, with no side effect: the byte at an index of an address space. -/
def State.readByte (s : State) (sp : Space) (i : Nat) : Option Byte := (s.buf sp).data.read i

/-! ## What is put out -/

/-- `Emit(a, tx)` (R59): put out a bus action and latch the acknowledge it arms. -/
def State.emit (a : BusAct) (tx : Option Byte) (s : State) : State :=
  { s with outlog := s.outlog ++ [.bus a tx], ackEn := ackAfter a }

/-- `emit Notify(bytes)` (R11, R76). -/
def State.notify (bytes : List Byte) (s : State) : State :=
  { s with outlog := s.outlog ++ [.notify bytes] }

/-- `respond v` (R11, R41); the command is complete, so FG's index advances (R14). -/
def State.respond (v : Byte) (s : State) : State :=
  { s with outlog := s.outlog ++ [.respond v], fpc := s.fpc + 1 }

/-- The bus action of an output. -/
def Output.bus? : Output → Option (BusAct × Option Byte)
  | .bus a tx => some (a, tx)
  | .notify _ => none
  | .respond _ => none

/-- The notification of an output. -/
def Output.notify? : Output → Option (List Byte)
  | .bus _ _ => none
  | .notify bytes => some bytes
  | .respond _ => none

/-- The response of an output. -/
def Output.respond? : Output → Option Byte
  | .bus _ _ => none
  | .notify _ => none
  | .respond v => some v

/-- `buslog` (R15): the bus actions put out, oldest first. -/
def State.buslog (s : State) : List (BusAct × Option Byte) := s.outlog.filterMap Output.bus?

/-- `notifylog` (R15): the notifications put out, oldest first. -/
def State.notifylog (s : State) : List (List Byte) := s.outlog.filterMap Output.notify?

/-- The responses FG has received, oldest first (R41). -/
def State.responses (s : State) : List Byte := s.outlog.filterMap Output.respond?

/-! ## Ending a step -/

/-- `raise Fault(reason, info)` (R101): write the fault record and nothing else. The ONE way an exception is taken. -/
def raise (r : FaultRecord) (s : State) : Host.Outcome State Fault Refusal :=
  .next { s with fault := some r }

/-- `refuse(reason, info)` (R101): write the refusal record and nothing else. -/
def refuse (r : RefusalRecord) (s : State) : Host.Outcome State Fault Refusal :=
  .next { s with refused := some r }

/-- `hold` (R11, R81): the command is not taken; it stays FG's next command and nothing changes (log 1). -/
def hold (s : State) : Host.Outcome State Fault Refusal := .next s

/-- The end of a transaction: one bus action with no byte, and back to READY (R17). -/
def State.finish (a : BusAct) (s : State) : State := { s.emit a none with state := .ready }

/-- The end of a transaction on an error (R63, R64, R65, R69, R71). -/
def State.failWith (e : TxnError) (a : BusAct) (s : State) : State := State.finish a { s with err := e }

/-! ## Draws (R11) -/

/-- The response draw of `END_WRITE NOWAIT` (R87, U1): a free byte (log 9). -/
def State.drawByte (s : State) : Byte × State :=
  (Config.freeByte s.draws, { s with draws := s.draws + 1 })

/-- The draw from `TX_SOURCE` (R77, U13): the answer the environment has ready, else a free list (log 9). -/
def State.drawReply (s : State) : List Byte × State :=
  match s.txReplies with
  | L :: rest => (L, { s with txReplies := rest })
  | [] => (Config.freeReply s.draws, { s with draws := s.draws + 1 })

/-- Who steps next (R9): the choice listed first, else a free one (log 1). -/
def State.drawTurn (s : State) : Agent × State :=
  match s.turns with
  | a :: rest => (a, { s with turns := rest })
  | [] => (Config.freeTurn s.draws, { s with draws := s.draws + 1 })

/-! ## Dispatch of an event -/

/-- R58: an event outside its accepted states raises `UnexpectedEvent`, then one that disagrees with the latch raises
`AckMismatch` (R60, R102), else its rule runs. -/
def dispatch (cls : EventClass) (rule : State → Host.Outcome State Fault Refusal) (s : State) :
    Host.Outcome State Fault Refusal :=
  if s.state ∈ acceptedIn cls then
    match latchRequired cls with
    | some a => if s.ackEn = a then rule s else raise (.ackMismatch s.state cls s.ackEn) s
    | none => rule s
  else raise (.unexpectedEvent s.state cls) s

end Sys2Proof.Machine
end

