-- ==== Sys2Proof/Machine/Commands.lean ====
section
/-! DEFINITION. The meanings of the seven commands (R84 to R90) and the completion step of a waiting command (R82). Each
takes its fault checks in the order of its pseudocode, then its hold, then its effect (R80, R102). The gate of R80 (no
fault, no refusal, FG idle) is the step's. -/

namespace Sys2Proof.Machine

/-- `START_BUS` (R84). -/
def execStartBus (s : State) : Host.Outcome State Fault Refusal :=
  if s.state ≠ .ready then raise (.restartWhileBusy s.state) s
  else
    .next (State.respond 0x00
      { s with
        state := .ready, enabled := true, ackEn := true
        divisor := Config.divisorFn Config.fCpu Config.fScl })

/-- `BEGIN_WRITE addr` (R85). -/
def execBeginWrite (addr : BusAddr) (s : State) : Host.Outcome State Fault Refusal :=
  if s.state ≠ .ready then hold s
  else .next (State.respond 0x00 { s with tgt := addr, wrOpen := true, mbuf := s.mbuf.bufReset })

/-- `QUEUE_BYTE b` (R86). -/
def execQueueByte (b : Byte) (s : State) : Host.Outcome State Fault Refusal :=
  if s.wrOpen = false then raise (.queueOutsideWrite (queueByteWord b)) s
  else .next (State.respond (fullByte (s.mbuf.bufWrite b).2) { s with mbuf := (s.mbuf.bufWrite b).1 })

/-- What `END_WRITE` does once it is taken, before its response (R87). -/
def State.startWrite (s : State) : State :=
  State.emit .start none
    { s with
      wrOpen := false, err := .none, sla := slaByte s.tgt false
      mbuf := { s.mbuf with cur := 0 }, state := .mt }

/-- `END_WRITE WAIT | NOWAIT` (R87). -/
def execEndWrite (wait : Bool) (s : State) : Host.Outcome State Fault Refusal :=
  if s.wrOpen = false then raise (.endWithoutBegin (endWriteWord wait)) s
  else if s.enabled = false then raise (.notStarted (endWriteWord wait)) s
  else if s.state ≠ .ready then hold s
  else if wait then .next { s.startWrite with fgPhase := .waitWrite }
  else .next (State.respond s.startWrite.drawByte.1 s.startWrite.drawByte.2)

/-- What `REQUEST_READ` does with a clamped count `k` above 0, after the buffer reset (R88). -/
def State.startRead (addr : BusAddr) (k : Nat) (s : State) : State :=
  { State.emit .start none
      { s with err := .none, sla := slaByte addr true, mrWant := k, state := .mr }
    with fgPhase := .waitRead }

/-- `REQUEST_READ addr, n` (R88). -/
def execRequestRead (addr : BusAddr) (n : Byte) (s : State) : Host.Outcome State Fault Refusal :=
  if s.wrOpen = true then raise (.readInsideWrite (requestReadWord addr n)) s
  else if 0 < clampCount n s.mbuf.cap ∧ s.enabled = false then raise (.notStarted (requestReadWord addr n)) s
  else if s.state ≠ .ready then hold s
  else if clampCount n s.mbuf.cap = 0 then .next (State.respond 0x00 { s with mbuf := s.mbuf.bufReset })
  else .next (State.startRead addr (clampCount n s.mbuf.cap) { s with mbuf := s.mbuf.bufReset })

/-- `AVAILABLE` (R89). -/
def execAvailable (s : State) : Host.Outcome State Fault Refusal :=
  if s.state = .mt ∨ s.state = .mr then raise (.masterBufferRace availableWord) s
  else .next (State.respond (countByte s.mbuf.bufAvail) s)

/-- `NEXT_BYTE` (R90). -/
def execNextByte (s : State) : Host.Outcome State Fault Refusal :=
  if s.state = .mt ∨ s.state = .mr then raise (.masterBufferRace nextByteWord) s
  else
    match s.mbuf.bufRead with
    | some (v, B) => .next (State.respond v { s with mbuf := B })
    | none => .fault (.unsetByte .master)

/-- The completion step of a waiting command (R82): enabled when `state` = READY, else FG goes on waiting (R35). -/
def complete (s : State) : Host.Outcome State Fault Refusal :=
  if s.state ≠ .ready then hold s
  else
    match s.fgPhase with
    | .idle => hold s
    | .waitWrite => .next { State.respond (codeByte s.err.code) s with fgPhase := .idle }
    | .waitRead => .next { State.respond (countByte s.mbuf.len) s with fgPhase := .idle }

end Sys2Proof.Machine
end

