-- ==== Sys2Proof/Machine/Master.lean ====
section
/-! DEFINITION. The meanings of the master events and of the bus error (R61 to R69, R71). -/

namespace Sys2Proof.Machine

/-- `START` (R61): send the address byte. -/
def execStart (s : State) : Host.Outcome State Fault Refusal :=
  dispatch .start (fun s => .next (s.emit .ack (some s.sla))) s

/-- Master transmit, a byte or the address was acknowledged (R62): send the next byte, or stop. -/
def sendMaster (s : State) : Host.Outcome State Fault Refusal :=
  if s.mbuf.cur < s.mbuf.len then
    match s.mbuf.bufRead with
    | some (b, B) => .next (State.emit .ack (some b) { s with mbuf := B })
    | none => .fault (.unsetByte .master)
  else .next (s.finish .stop)

/-- `MT_SLA_ACK` (R62). -/
def execMtSlaAck (s : State) : Host.Outcome State Fault Refusal := dispatch .mtSlaAck sendMaster s

/-- `MT_DATA_ACK` (R62). -/
def execMtDataAck (s : State) : Host.Outcome State Fault Refusal := dispatch .mtDataAck sendMaster s

/-- `MT_SLA_NACK` (R63). -/
def execMtSlaNack (s : State) : Host.Outcome State Fault Refusal :=
  dispatch .mtSlaNack (fun s => .next (s.failWith .addressNack .stop)) s

/-- `MT_DATA_NACK` (R64). -/
def execMtDataNack (s : State) : Host.Outcome State Fault Refusal :=
  dispatch .mtDataNack (fun s => .next (s.failWith .dataNack .stop)) s

/-- `ARB_LOST` (R65): release, not stop. -/
def execArbLost (s : State) : Host.Outcome State Fault Refusal :=
  dispatch .arbLost (fun s => .next (s.failWith .arbitrationLost .release)) s

/-- Arm the response to the next byte of a master read (R66): acknowledge while more than one byte is still expected. -/
def State.armRead (s : State) : State :=
  s.emit (armFor (decide (s.mbuf.len + 1 < s.mrWant))) none

/-- `MR_SLA_ACK` (R66). -/
def execMrSlaAck (s : State) : Host.Outcome State Fault Refusal :=
  dispatch .mrSlaAck (fun s => .next s.armRead) s

/-- `MR_DATA_ACK` (R67): store the byte, then arm for the following one. -/
def execMrDataAck (d : Byte) (s : State) : Host.Outcome State Fault Refusal :=
  dispatch .mrDataAck (fun s => .next (State.armRead { s with mbuf := (s.mbuf.bufWrite d).1 })) s

/-- `MR_DATA_NACK` (R68): store the last byte and stop. -/
def execMrDataNack (d : Byte) (s : State) : Host.Outcome State Fault Refusal :=
  dispatch .mrDataNack (fun s => .next (State.finish .stop { s with mbuf := (s.mbuf.bufWrite d).1 })) s

/-- `MR_SLA_NACK` (R69, C5). -/
def execMrSlaNack (s : State) : Host.Outcome State Fault Refusal :=
  dispatch .mrSlaNack (fun s => .next (s.failWith .addressNack .stop)) s

/-- `BUS_ERROR` (R71): accepted in every state. -/
def execBusError (s : State) : Host.Outcome State Fault Refusal :=
  dispatch .busError (fun s => .next (s.failWith .busError .stop)) s

end Sys2Proof.Machine
end

