-- ==== Sys2Proof/Machine/Slave.lean ====
section
/-! DEFINITION. The meanings of the slave events (R73 to R79). -/

namespace Sys2Proof.Machine

/-- `SR_SLA_ACK` (R73). -/
def execSrSlaAck (s : State) : Host.Outcome State Fault Refusal :=
  dispatch .srSlaAck
    (fun s => .next (State.emit .ack none { s with state := .sr, srbuf := s.srbuf.bufReset })) s

/-- Arm the response to the next slave-receive byte by the room left (R74). -/
def State.armSlave (s : State) : State :=
  s.emit (armFor (decide (s.srbuf.len < s.srbuf.cap))) none

/-- `SR_DATA_ACK` (R74). -/
def execSrDataAck (d : Byte) (s : State) : Host.Outcome State Fault Refusal :=
  dispatch .srDataAck (fun s => .next (State.armSlave { s with srbuf := (s.srbuf.bufWrite d).1 })) s

/-- `SR_DATA_NACK` (R75): the byte is discarded. -/
def execSrDataNack (_d : Byte) (s : State) : Host.Outcome State Fault Refusal :=
  dispatch .srDataNack (fun s => .next (s.emit .nack none)) s

/-- `SR_STOP` (R76): notify, then release. -/
def execSrStop (s : State) : Host.Outcome State Fault Refusal :=
  dispatch .srStop
    (fun s =>
      match s.srbuf.held with
      | some bytes => .next ((s.notify bytes).finish .release)
      | none => .fault (.unsetByte .slaveRx)) s

/-- Send the next slave-transmit byte (R77, R78), saying whether more follow. -/
def sendSlave (s : State) : Host.Outcome State Fault Refusal :=
  match s.stbuf.bufRead with
  | some (b, B) => .next (State.emit (armFor (decide (B.cur < B.len))) (some b) { s with stbuf := B })
  | none => .fault (.unsetByte .slaveTx)

/-- Begin a slave transmit with the bytes `L` of the data source (R77). -/
def startSlaveTransmit (L : List Byte) (s : State) : Host.Outcome State Fault Refusal :=
  sendSlave { s with state := .st, stbuf := s.stbuf.bufReset.fill L }

/-- `ST_SLA_ACK` (R77). -/
def execStSlaAck (s : State) : Host.Outcome State Fault Refusal :=
  dispatch .stSlaAck (fun s => startSlaveTransmit s.drawReply.1 s.drawReply.2) s

/-- `ST_DATA_ACK` (R78). -/
def execStDataAck (s : State) : Host.Outcome State Fault Refusal := dispatch .stDataAck sendSlave s

/-- `ST_DATA_NACK` (R79). -/
def execStDataNack (s : State) : Host.Outcome State Fault Refusal :=
  dispatch .stDataNack (fun s => .next (s.finish .release)) s

/-- `ST_LAST_DATA` (R79). -/
def execStLastData (s : State) : Host.Outcome State Fault Refusal :=
  dispatch .stLastData (fun s => .next (s.finish .release)) s

end Sys2Proof.Machine
end

