-- ==== Sys2Proof/Machine/Dispatch.lean ====
section
/-! DEFINITION. One arm for every constructor of `Instr`, each a direct call of its meaning. -/

namespace Sys2Proof.Machine

def exec (i : Instr) (s : State) : Host.Outcome State Fault Refusal :=
  match i with
  | .startBus => Sys2Proof.Machine.execStartBus s
  | .beginWrite addr => Sys2Proof.Machine.execBeginWrite addr s
  | .queueByte b => Sys2Proof.Machine.execQueueByte b s
  | .endWrite wait => Sys2Proof.Machine.execEndWrite wait s
  | .requestRead addr n => Sys2Proof.Machine.execRequestRead addr n s
  | .available => Sys2Proof.Machine.execAvailable s
  | .nextByte => Sys2Proof.Machine.execNextByte s
  | .busError => Sys2Proof.Machine.execBusError s
  | .start => Sys2Proof.Machine.execStart s
  | .mtSlaAck => Sys2Proof.Machine.execMtSlaAck s
  | .mtSlaNack => Sys2Proof.Machine.execMtSlaNack s
  | .mtDataAck => Sys2Proof.Machine.execMtDataAck s
  | .mtDataNack => Sys2Proof.Machine.execMtDataNack s
  | .arbLost => Sys2Proof.Machine.execArbLost s
  | .mrSlaAck => Sys2Proof.Machine.execMrSlaAck s
  | .mrSlaNack => Sys2Proof.Machine.execMrSlaNack s
  | .mrDataAck d => Sys2Proof.Machine.execMrDataAck d s
  | .mrDataNack d => Sys2Proof.Machine.execMrDataNack d s
  | .srSlaAck => Sys2Proof.Machine.execSrSlaAck s
  | .srDataAck d => Sys2Proof.Machine.execSrDataAck d s
  | .srDataNack d => Sys2Proof.Machine.execSrDataNack d s
  | .srStop => Sys2Proof.Machine.execSrStop s
  | .stSlaAck => Sys2Proof.Machine.execStSlaAck s
  | .stDataAck => Sys2Proof.Machine.execStDataAck s
  | .stDataNack => Sys2Proof.Machine.execStDataNack s
  | .stLastData => Sys2Proof.Machine.execStLastData s

end Sys2Proof.Machine
end

