-- ==== Sys2Proof/Machine/Agents.lean ====
section
/-! DEFINITION. What each agent does when its turn comes (R9): FG issues its next command or tries to complete a waiting
one (R80, R82), PERIPH delivers its next bus event (R58). An agent whose step is not enabled lets its turn pass. -/

namespace Sys2Proof.Machine

/-- FG's issue step (R80): decode the next command and run it; an illegal word raises `IllegalCommand` (R39). With no
command left FG does nothing. -/
def issue (s : State) : Host.Outcome State Fault Refusal :=
  match s.program[s.fpc]? with
  | none => .next s
  | some c =>
    match decodeCommand c with
    | .ok i => exec i s
    | .error _ => raise (.illegalCommand c) s

/-- FG's turn: inside a waiting command only the completion step can be taken (R9, R82), else the issue step. -/
def fgTurn (s : State) : Host.Outcome State Fault Refusal :=
  match s.fgPhase with
  | .idle => issue s
  | .waitWrite => complete s
  | .waitRead => complete s

/-- PERIPH's turn (R58): while `enabled` = 0 it delivers nothing (R103); else the next event is delivered, once: a code
with no class is refused (R45), else the event runs. -/
def periphTurn (s : State) : Host.Outcome State Fault Refusal :=
  if s.enabled = false then .next s
  else
    match s.events with
    | [] => .next s
    | e :: rest =>
      match decodeEvent s.statusMap e with
      | .ok i => exec i { s with events := rest }
      | .error _ => refuse (.unknownStatus e.status) { s with events := rest }

/-- The turn of an agent. -/
def agentTurn (a : Agent) (s : State) : Host.Outcome State Fault Refusal :=
  match a with
  | .fg => fgTurn s
  | .periph => periphTurn s

/-- One step of the block in a state that may step (R9, R101): once a record is set no step of any agent is enabled. -/
def runStep (s : State) : Host.Outcome State Fault Refusal :=
  match s.fault with
  | some r => .fault (.stopped r)
  | none =>
    match s.refused with
    | some r => .refused (.stopped r)
    | none => agentTurn s.drawTurn.1 s.drawTurn.2

/-- FG's list with the word put at an index, padded with the word 0 (which is no command, R39) where it is shorter. -/
def putCommand : List CommandWord → Nat → CommandWord → List CommandWord
  | [], 0, c => [c]
  | _ :: rest, 0, c => c :: rest
  | [], n + 1, c => 0 :: putCommand [] n c
  | d :: rest, n + 1, c => d :: putCommand rest n c

/-- A state whose very next step takes what is put on a port: a command as FG's next command at FG's turn, an event as
PERIPH's next event at PERIPH's turn, with what those steps need (R80, R58): no record set, FG idle, the bus enabled. -/
def placeOnPort (p : PortWord) (s : State) : State :=
  match p with
  | .command c =>
    { s with
      program := putCommand s.program s.fpc c, turns := .fg :: s.turns
      fgPhase := .idle, fault := none, refused := none }
  | .event e =>
    { s with
      events := e :: s.events, turns := .periph :: s.turns
      enabled := true, fault := none, refused := none }

end Sys2Proof.Machine
end

