-- ==== Sys2Proof/Machine/Step.lean ====
section
/-! DEFINITION. The step of the machine, and the placing of an instruction where the next step takes it. -/

namespace Sys2Proof.Machine

/-- One step: the agent whose turn it is takes its step (R9). -/
def step (s : State) : Host.Outcome State Fault Refusal := runStep s

/-- `s` with the opcode-table instruction of bits `w` placed so that the next step runs exactly it (logs 2, 15); a width
the table does not have places nothing. -/
def State.withFetchWord (s : State) (nbits w : Nat) : State :=
  match tablePortWord nbits w with
  | some p => placeOnPort p s
  | none => s

end Sys2Proof.Machine
end

