-- ==== Sys2Proof/Machine/Adapter.lean ====
section
/-! DEFINITION. The Register-Access Adapter's pseudo-instructions as command sequences (R94 to R96) and the assembler
that turns a source line into words (R51). They are no instructions of the block: FG issues the commands. -/

namespace Sys2Proof.Machine

/-- `QUEUE_BYTES b0, ..., b(n-1)` (R94). -/
def queueBytes (bytes : List Byte) : List Instr := bytes.map Instr.queueByte

/-- `WRITE_REGISTER r, v` against the peripheral at `P` (R95). -/
def writeRegister (P : BusAddr) (r v : Byte) : List Instr :=
  [.beginWrite P, .queueByte r, .queueByte v, .endWrite true]

/-- `READ_REGISTER r` against the peripheral at `P` (R96); its result is the response of the last command. -/
def readRegister (P : BusAddr) (r : Byte) : List Instr :=
  [.beginWrite P, .queueByte r, .endWrite true, .requestRead P 1, .nextByte]

/-- The command words of a list of instructions, for FG's program; an event has no command word. -/
def commandWords : List Instr → List CommandWord
  | [] => []
  | i :: rest =>
    match encode i with
    | .command c => c :: commandWords rest
    | .event _ => commandWords rest

/-- The commands of a well-formed line, the pseudo-instructions against the peripheral at `P`; `none` for an assembly
error (R51). -/
def assembleLine (P : BusAddr) (l : AsmLine) : Option (List CommandWord) :=
  if l.wf then
    match l with
    | .startBus => some [startBusWord]
    | .beginWrite addr => some [beginWriteWord (BitVec.ofNat 7 addr)]
    | .queueByte byte => some [queueByteWord (BitVec.ofNat 8 byte)]
    | .endWrite wait => some [endWriteWord wait]
    | .requestRead addr count => some [requestReadWord (BitVec.ofNat 7 addr) (BitVec.ofNat 8 count)]
    | .available => some [availableWord]
    | .nextByte => some [nextByteWord]
    | .queueBytes bytes => some (commandWords (queueBytes (bytes.map (BitVec.ofNat 8))))
    | .writeRegister r v => some (commandWords (writeRegister P (BitVec.ofNat 8 r) (BitVec.ofNat 8 v)))
    | .readRegister r => some (commandWords (readRegister P (BitVec.ofNat 8 r)))
  else none

/-! ## Reading a source line (R51)

The words of a line are parted by blanks, a comma is a word of its own, and a semicolon ends the line (log 18). -/

/-- The words of a line; `word` is the one being read. -/
def lexLine (word : List Char) : List Char → List (List Char)
  | [] => if word = [] then [] else [word]
  | c :: rest =>
    if c = ';' then (if word = [] then [] else [word])
    else if c = ' ' ∨ c = '\t' then (if word = [] then lexLine [] rest else word :: lexLine [] rest)
    else if c = ',' then (if word = [] then [','] :: lexLine [] rest else word :: [','] :: lexLine [] rest)
    else lexLine (word ++ [c]) rest

/-- The value of a digit in a base up to 16. -/
def digitValue (base : Nat) (c : Char) : Option Nat :=
  let v :=
    if '0'.toNat ≤ c.toNat ∧ c.toNat ≤ '9'.toNat then c.toNat - '0'.toNat
    else if 'a'.toNat ≤ c.toNat ∧ c.toNat ≤ 'f'.toNat then c.toNat - 'a'.toNat + 10
    else if 'A'.toNat ≤ c.toNat ∧ c.toNat ≤ 'F'.toNat then c.toNat - 'A'.toNat + 10
    else base
  if v < base then some v else none

/-- The number a non-empty list of digits stands for, onto `acc`. -/
def digitsValue (base acc : Nat) : List Char → Option Nat
  | [] => some acc
  | c :: rest =>
    match digitValue base c with
    | some v => digitsValue base (acc * base + v) rest
    | none => none

/-- A number in decimal, or in hexadecimal after `0x` (R51). -/
def numberValue : List Char → Option Nat
  | [] => none
  | '0' :: 'x' :: c :: rest => digitsValue 16 0 (c :: rest)
  | c :: rest => digitsValue 10 0 (c :: rest)

/-- Numbers parted by commas; none at all is the empty list. -/
def numberList : List (List Char) → Option (List Nat)
  | [] => some []
  | [w] => (numberValue w).map fun v => [v]
  | w :: comma :: rest =>
    if comma = [','] ∧ rest ≠ [] then
      match numberValue w, numberList rest with
      | some v, some vs => some (v :: vs)
      | _, _ => none
    else none

/-- A source line read as a command or a pseudo-instruction (R51, R94 to R96); `none` for an assembly error. -/
def parseLine (line : List Char) : Option AsmLine :=
  match lexLine [] line with
  | [] => none
  | mnemonic :: operands =>
    if mnemonic = "END_WRITE".toList then
      if operands = ["WAIT".toList] then some (.endWrite true)
      else if operands = ["NOWAIT".toList] then some (.endWrite false)
      else none
    else
      match numberList operands with
      | none => none
      | some ns =>
        if mnemonic = "QUEUE_BYTES".toList then some (.queueBytes ns)
        else
          match ns with
          | [] =>
            if mnemonic = "START_BUS".toList then some .startBus
            else if mnemonic = "AVAILABLE".toList then some .available
            else if mnemonic = "NEXT_BYTE".toList then some .nextByte
            else none
          | [a] =>
            if mnemonic = "BEGIN_WRITE".toList then some (.beginWrite a)
            else if mnemonic = "QUEUE_BYTE".toList then some (.queueByte a)
            else if mnemonic = "READ_REGISTER".toList then some (.readRegister a)
            else none
          | [a, b] =>
            if mnemonic = "REQUEST_READ".toList then some (.requestRead a b)
            else if mnemonic = "WRITE_REGISTER".toList then some (.writeRegister a b)
            else none
          | _ => none

/-- The words of a source line, if it is one (R51). -/
def assemble (P : BusAddr) (line : List Char) : Option (List CommandWord) :=
  match parseLine line with
  | some l => assembleLine P l
  | none => none

end Sys2Proof.Machine
end

