-- ==== Sys2Proof/Safety.lean ====
section
/-! DEFINITION. What counts as a good state and a good run, in the terms the claims use. -/

namespace Sys2Proof.Machine

/-- No fault and no refusal is recorded: the premise of a claim that a run ends well (R10, R101). -/
def State.clear (s : State) : Prop := s.fault = none ∧ s.refused = none

/-- A buffer as R20 and R56 keep it: canonical data inside the capacity, `cur <= len <= CAP`, a capacity of 1..32 (R7),
and every held byte written (R113). -/
structure Buf.Ok (B : Buf) : Prop where
  canonical : B.data.wf = true
  inside    : ∀ c ∈ B.data, c.1 < B.cap
  capacity  : 1 ≤ B.cap ∧ B.cap ≤ 32
  cursor    : B.cur ≤ B.len
  length    : B.len ≤ B.cap
  written   : ∀ i < B.len, (B.data.read i).isSome = true

/-- The invariant of the block that every step keeps. -/
structure State.Inv (s : State) : Prop where
  /-- R20, R56. -/
  mbuf        : s.mbuf.Ok
  /-- R7. -/
  capM        : s.mbuf.cap = Config.capM
  /-- R20, R56. -/
  srbuf       : s.srbuf.Ok
  /-- R20, R56. -/
  stbuf       : s.stbuf.Ok
  /-- R91. -/
  errLegal    : s.err ≠ .lengthTooLong
  /-- One step reports at most one condition and none follows it (R101, R102). -/
  oneRecord   : s.fault = none ∨ s.refused = none
  /-- The state machine leaves READY only while the bus is enabled (R87, R88, R103). -/
  busyEnabled : s.state ≠ .ready → s.enabled = true
  /-- No write is open and no error is latched while a master transaction is in flight (R33, R62, R93). -/
  inFlight    : s.state = .mt ∨ s.state = .mr → s.wrOpen = false ∧ s.err = .none
  /-- R19: `sla` is held through the transaction. -/
  writeSla    : s.state = .mt → s.sla = slaByte s.tgt false
  /-- R19. -/
  readSla     : s.state = .mr → s.sla.getLsbD 0 = true
  /-- R21, but for `mbuf.len < mr_want` (log 13). -/
  reading     : s.state = .mr → s.mbuf.cur = 0 ∧ 1 ≤ s.mrWant
  /-- R15: `mr_want` is in 0..32. -/
  wantBound   : s.mrWant ≤ Config.capM
  /-- FG waits inside a command of its list, with no write open (R9, R82, R87, R88). -/
  waiting     : s.fgPhase ≠ .idle → s.wrOpen = false ∧ s.fpc < s.program.length
  /-- R82, R87: the transaction of a waiting write is no read. -/
  waitWrite   : s.fgPhase = .waitWrite → s.state ≠ .mr
  /-- R82, R88: the transaction of a waiting read is no write, and nothing is drained meanwhile. -/
  waitRead    : s.fgPhase = .waitRead → s.state ≠ .mt ∧ s.mbuf.cur = 0
  /-- R74: acknowledge is armed exactly while room remains. -/
  slaveRx     : s.state = .sr → s.srbuf.cur = 0 ∧ (s.ackEn = true ↔ s.srbuf.len < s.srbuf.cap)
  /-- R77, R78: "more bytes follow" is armed exactly while an unsent byte remains. -/
  slaveTx     : s.state = .st → (s.ackEn = true ↔ s.stbuf.cur < s.stbuf.len)

/-- The commands among the instructions (R2). -/
def isCommand (i : Instr) : Bool :=
  match encode i with
  | .command _ => true
  | .event _ => false

/-- Instructions executed one after the other, stopping where one stops. -/
def execAll : List Instr → State → Host.Outcome State Fault Refusal
  | [], s => .next s
  | i :: rest, s =>
    match exec i s with
    | .next t => execAll rest t
    | .fault r => .fault r
    | .refused r => .refused r

/-- The acknowledge armed for a master read is what R66 and R67 arm: positive exactly while more than one byte is still
expected. -/
def State.ReadArmed (s : State) : Prop :=
  s.state = .mr ∧ s.mbuf.len < s.mrWant ∧ (s.ackEn = true ↔ s.mbuf.len + 1 < s.mrWant)

/-- What appending a byte does to a buffer, in the words of R52: with room, the byte is at the old `len`, every other
byte is as before, `len` is one more; without room nothing changes. `cur` and the capacity never change. -/
def Buf.Appended (B : Buf) (b : Byte) (B' : Buf) : Prop :=
  if B.len < B.cap then
    B'.len = B.len + 1 ∧ B'.cur = B.cur ∧ B'.cap = B.cap ∧ B'.data.read B.len = some b ∧
      ∀ i, i ≠ B.len → B'.data.read i = B.data.read i
  else B' = B

/-- Two buffers that differ at most in bytes no rule may read any more: those at and past `len` (R54). -/
structure Buf.SameHeld (B B' : Buf) : Prop where
  cap  : B'.cap = B.cap
  len  : B'.len = B.len
  cur  : B'.cur = B.cur
  held : ∀ i < B.len, B'.data.read i = B.data.read i

/-- Two states that differ at most in bytes at and past the `len` of a buffer. -/
structure State.SameHeld (s s' : State) : Prop where
  mbuf  : s.mbuf.SameHeld s'.mbuf
  srbuf : s.srbuf.SameHeld s'.srbuf
  stbuf : s.stbuf.SameHeld s'.stbuf
  rest  : s' = { s with mbuf := s'.mbuf, srbuf := s'.srbuf, stbuf := s'.stbuf }

end Sys2Proof.Machine
end

