-- ==== Sys2Proof/Certificates/Slice0/Obligations.lean ====
section
/-! DEFINITION. The statements for the provers. Each docstring names the rules it formalises. An equation
`exec i s = .next { s with ... }` states the effect and the frame at once: every field it does not name is unchanged,
every byte of every buffer among them. Where a byte is stored, the address is the buffer's own `len` (R27), and
`Buf.Appended` says that every other byte reads as before.

The form of a next state is the model's in these points, which every statement shares: FG's index is the field `fpc`
(log 2), all outputs and responses stand in the one list `outlog` (log 10), and raising is a next state that holds the
record (log 4). -/

open Sys2Proof Sys2Proof.Machine

/-! ## Reset, invariant, progress -/

/-- R112, R25: what reset leaves in the fields the spec gives a value, and no byte of any buffer holds one. (The values
of `tgt`, `sla` and `divisor`, unset in the spec, are the model's: log 5; the statement says nothing of them.) -/
def Obligations.ResetLeavesStatedValues : Prop :=
  let s := State.reset
  s.state = .ready ∧ s.err = .none ∧ s.wrOpen = false ∧ s.mrWant = 0 ∧ s.ackEn = false ∧ s.enabled = false ∧
    s.fgPhase = .idle ∧ s.fault = none ∧ s.refused = none ∧ s.buslog = [] ∧ s.notifylog = [] ∧ s.stat = 0x00 ∧
    (∀ sp, (s.buf sp).len = 0 ∧ (s.buf sp).cur = 0 ∧ (s.buf sp).cap = 32) ∧ ∀ sp i, s.readByte sp i = none

/-- The invariant of the block holds at reset. -/
def Obligations.ResetMeetsInvariant : Prop := State.reset.Inv

/-- The invariant (R20, R56, R15, R19, R21 but for the length bound, R33, R62, R74, R77, R82, R91, R93, R113) is kept
by every step, whatever command, event, answer and turn comes. -/
def Obligations.StepKeepsInvariant : Prop :=
  ∀ s t : State, s.Inv → step s = .next t → t.Inv

/-- Under the invariant, a state with no record always has a next state: no step meets an unset byte (R113), and none ends
in a fault or a refusal outcome. This rests on the model's choices: where no step of the agent whose turn it is is
enabled (R11, R35, R121: a hold, a wait, nothing to do), the turn passes as a next state (log 1), and raising and
refusing are next states that hold the record (log 4). It does not say that some step of the spec is enabled. -/
def Obligations.StepAnswersUnderInvariant : Prop :=
  ∀ s : State, s.Inv → s.clear → ∃ t, step s = .next t

/-- R101 for the first two clauses: raising and refusing write their record and nothing else. The last two clauses are
the model's form of R101's "no step of any agent is enabled": a step in a stopped state answers the outcome that names
the record, the fault first where both are set (log 4). -/
def Obligations.RecordStopsEveryStep : Prop :=
  (∀ r s, raise r s = .next { s with fault := some r }) ∧
    (∀ r s, refuse r s = .next { s with refused := some r }) ∧
    (∀ s r, s.fault = some r → step s = .fault (.stopped r)) ∧
    ∀ s r, s.fault = none → s.refused = some r → step s = .refused (.stopped r)

/-! ## Encodings -/

/-- Decoding an encoded instruction gives it back, for every instruction and every operand. -/
def Obligations.DecodeOfEncodeIsInstruction : Prop :=
  ∀ i : Instr, decode defaultStatusMap (encode i) = .ok i

/-- The other direction for commands: a word that decodes is the encoding of what it decodes to, so the word a fault
records (R100) is the word issued. -/
def Obligations.EncodeOfDecodedCommandIsWord : Prop :=
  ∀ (c : CommandWord) (i : Instr), decodeCommand c = .ok i → encode i = .command c

/-- R38, R39: the words the decoder's masks accept are exactly those legal by their fields. -/
def Obligations.DecodedWordsAreLegalByFields : Prop :=
  ∀ c : CommandWord, (∃ i, decodeCommand c = .ok i) ↔ commandWf c = true

/-- R39: an illegal word, legal by none of its fields' rules, raises `IllegalCommand` with the word at its issue step,
with no other effect on the block; that the step is taken at FG's turn, and consumes the turn, is the model's (log 1). -/
def Obligations.IllegalWordRaisesFault : Prop :=
  ∀ (s : State) (c : CommandWord), s.clear → s.drawTurn.1 = .fg → s.fgPhase = .idle → s.program[s.fpc]? = some c →
    commandWf c = false → step s = .next { s.drawTurn.2 with fault := some (.illegalCommand c) }

/-- R44: the default status map, by `s[7:3]` alone. -/
def Obligations.DefaultStatusMapIsTable : Prop :=
  ∀ s : Byte, statusClass defaultStatusMap s =
    match s.toNat / 8 with
    | 0 => some .busError
    | 1 => some .start
    | 3 => some .mtSlaAck
    | 4 => some .mtSlaNack
    | 5 => some .mtDataAck
    | 6 => some .mtDataNack
    | 7 => some .arbLost
    | 8 => some .mrSlaAck
    | 9 => some .mrSlaNack
    | 10 => some .mrDataAck
    | 11 => some .mrDataNack
    | 12 => some .srSlaAck
    | 16 => some .srDataAck
    | 17 => some .srDataNack
    | 20 => some .srStop
    | 21 => some .stSlaAck
    | 23 => some .stDataAck
    | 24 => some .stDataNack
    | 25 => some .stLastData
    | _ => none

/-- R45: an event whose code is unmapped is refused with its code, before any check of the state (R102). That the turn
is consumed (log 1), and the event too although the step refuses (log 3), is the model's choice. -/
def Obligations.UnmappedStatusIsRefused : Prop :=
  ∀ (s : State) (e : BusEvent) (rest : List BusEvent), s.clear → s.drawTurn.1 = .periph → s.enabled = true →
    s.events = e :: rest → statusClass s.statusMap e.status = none →
    step s = .next { s.drawTurn.2 with events := rest, refused := some (.unknownStatus e.status) }

/-- Words written out from R38 and R44. That a table word of 8 bits is a status code with received byte 0, and so the
operand of the class 0x57 decodes to, is the model's choice (log 15); the codes are those of the default status map,
held as rows in the state (log 8). -/
def Obligations.SampleWordsDecode : Prop :=
  decodeTableWord 24 0x206800 = some (.beginWrite 0x68) ∧ decodeTableWord 24 0x3000FF = some (.queueByte 0xFF) ∧
    decodeTableWord 24 0x480000 = some (.endWrite true) ∧ decodeTableWord 24 0x507FFF = some (.requestRead 0x7F 255) ∧
    decodeTableWord 24 0x208000 = none ∧ decodeTableWord 8 0x0B = some .start ∧
    decodeTableWord 8 0x57 = some (.mrDataAck 0) ∧ decodeTableWord 8 0xC8 = some .stLastData ∧
    decodeTableWord 8 0x10 = none

/-- R48, R49: the codes of BusState and TxnError; no other code occurs. -/
def Obligations.StateAndErrorCodes : Prop :=
  (BusState.code .ready = 0 ∧ BusState.code .mt = 1 ∧ BusState.code .mr = 2 ∧ BusState.code .st = 3 ∧
      BusState.code .sr = 4 ∧ ∀ b : BusState, b.code.toNat ≤ 4) ∧
    (TxnError.code .none = 0 ∧ TxnError.code .addressNack = 1 ∧ TxnError.code .dataNack = 2 ∧
      TxnError.code .arbitrationLost = 3 ∧ TxnError.code .busError = 4 ∧ TxnError.code .lengthTooLong = 5 ∧
      ∀ e : TxnError, e.code.toNat ≤ 5)

/-- R50: `sla = {addr[6:0], rw}`, which is `(addr << 1) | rw`. (The spec took the layout from general knowledge:
log 16.) -/
def Obligations.SlaByteIsAddressThenDirection : Prop :=
  ∀ (addr : BusAddr) (read : Bool),
    slaByte addr read = addr ++ BitVec.ofBool read ∧ (slaByte addr read).toNat = 2 * addr.toNat + read.toNat

/-- R25: the fields of the status word, and its value at reset. -/
def Obligations.StatusWordLayout : Prop :=
  (∀ s : State, s.stat = BitVec.ofBool s.enabled ++ s.err.code ++ 0#1 ++ s.state.code) ∧ State.reset.stat = 0x00

/-! ## Steps and turns -/

/-- R80: at FG's turn, outside a waiting command, the step runs the instruction FG's next word decodes to; around it
the step only consumes the turn (the model's choice, log 1). FG's list and index in the state are log 2. -/
def Obligations.StepRunsDecodedCommand : Prop :=
  ∀ (s : State) (c : CommandWord) (i : Instr), s.clear → s.drawTurn.1 = .fg → s.fgPhase = .idle →
    s.program[s.fpc]? = some c → decodeCommand c = .ok i → step s = exec i s.drawTurn.2

/-- R58: at PERIPH's turn with the bus enabled, the step runs the next event. Around it the step consumes the turn
(log 1) and the event, whatever `exec` does with it, also where it raises a fault (log 3): both are the model's
choices, since R103 has an event cleared by the step's bus action. -/
def Obligations.StepRunsDecodedEvent : Prop :=
  ∀ (s : State) (e : BusEvent) (rest : List BusEvent) (i : Instr), s.clear → s.drawTurn.1 = .periph →
    s.enabled = true → s.events = e :: rest → decodeEvent s.statusMap e = .ok i →
    step s = exec i { s.drawTurn.2 with events := rest }

/-- R9 and U14 let any enabled step be the next. How that choice is made is the model's (log 1): the agent listed first
in `turns` takes its turn, and an agent with no enabled step (FG with no word left, log 2; PERIPH with no event, log 3,
or before `START_BUS`, R58) lets it pass as a next state in which only the turn is consumed. -/
def Obligations.AnyAgentMayStepNext : Prop :=
  (∀ (s : State) (a : Agent) (rest : List Agent), s.clear → s.turns = a :: rest →
      step s = agentTurn a { s with turns := rest }) ∧
    (∀ s : State, s.clear → s.drawTurn.1 = .fg → s.fgPhase = .idle → s.program[s.fpc]? = none →
      step s = .next s.drawTurn.2) ∧
    ∀ s : State, s.clear → s.drawTurn.1 = .periph → s.enabled = false ∨ s.events = [] →
      step s = .next s.drawTurn.2

/-- R82 for the second and third clauses: the completion step of a waiting command answers the code of `err` or the
number of bytes captured, taken as its low 8 bits (log 17), and FG is idle again. That outside READY, where the
completion step is not enabled (R82, R35), FG's turn passes as a next state with only the turn consumed is the model's
choice (log 1). -/
def Obligations.WaitingCommandCompletes : Prop :=
  ∀ s : State, s.clear → s.drawTurn.1 = .fg →
    (s.fgPhase ≠ .idle → s.state ≠ .ready → step s = .next s.drawTurn.2) ∧
      (s.fgPhase = .waitWrite → s.state = .ready →
        step s = .next { s.drawTurn.2 with
          outlog := s.outlog ++ [.respond (s.err.code.zeroExtend 8)], fpc := s.fpc + 1, fgPhase := .idle }) ∧
      (s.fgPhase = .waitRead → s.state = .ready →
        step s = .next { s.drawTurn.2 with
          outlog := s.outlog ++ [.respond (BitVec.ofNat 8 s.mbuf.len)], fpc := s.fpc + 1, fgPhase := .idle })

/-- R15, R7, R14, R41: what was put out stays put out; FG's index (log 2) advances by one exactly with each response, at
most one a step; the parameters and FG's list never change. That outputs and responses are one list is log 10, that
the capacities and the status map are fields is logs 7 and 8. -/
def Obligations.StepAppendsOutputAndKeepsParameters : Prop :=
  ∀ s t : State, step s = .next t →
    (∃ new, t.outlog = s.outlog ++ new) ∧
      (t.fpc + s.responses.length = s.fpc + t.responses.length ∧ t.responses.length ≤ s.responses.length + 1) ∧
      t.statusMap = s.statusMap ∧ t.program = s.program ∧
      t.mbuf.cap = s.mbuf.cap ∧ t.srbuf.cap = s.srbuf.cap ∧ t.stbuf.cap = s.stbuf.cap

/-! ## The buffer primitives -/

/-- R52. -/
def Obligations.BufWriteAppendsOrDrops : Prop :=
  ∀ (B : Buf) (b : Byte), B.Appended b (B.bufWrite b).1 ∧ ((B.bufWrite b).2 = true ↔ ¬ B.len < B.cap)

/-- R53. -/
def Obligations.BufReadAdvancesOrAnswersZero : Prop :=
  ∀ B : Buf,
    (∀ b, B.cur < B.len → B.data.read B.cur = some b → B.bufRead = some (b, { B with cur := B.cur + 1 })) ∧
      (B.len ≤ B.cur → B.bufRead = some (0x00, B))

/-- R56: every primitive, and setting the cursor to 0, keeps `cur <= len <= CAP`. -/
def Obligations.BufferPrimitivesKeepBounds : Prop :=
  ∀ B : Buf, B.cur ≤ B.len → B.len ≤ B.cap →
    (∀ b, (B.bufWrite b).1.cur ≤ (B.bufWrite b).1.len ∧ (B.bufWrite b).1.len ≤ (B.bufWrite b).1.cap) ∧
      (∀ b B', B.bufRead = some (b, B') → B'.cur ≤ B'.len ∧ B'.len ≤ B'.cap) ∧
      (B.bufReset.cur = 0 ∧ B.bufReset.len = 0 ∧ B.bufReset.data = B.data ∧ B.bufReset.cap = B.cap) ∧
      B.bufAvail ≤ B.cap ∧ 0 ≤ ({ B with cur := 0 } : Buf).len ∧ ({ B with cur := 0 } : Buf).len ≤ B.cap

/-! ## The commands -/

/-- R84. -/
def Obligations.StartBusEnablesBus : Prop :=
  ∀ s : State,
    (s.state = .ready → exec .startBus s = .next { s with
        state := .ready, enabled := true, ackEn := true, divisor := Config.divisorFn Config.fCpu Config.fScl
        outlog := s.outlog ++ [.respond 0x00], fpc := s.fpc + 1 }) ∧
      (s.state ≠ .ready → exec .startBus s = .next { s with fault := some (.restartWhileBusy s.state) })

/-- R85 for the first clause. A held `BEGIN_WRITE` (R81: its issue step is not enabled) answers the unchanged state as a
next state by the model's choice (log 1). -/
def Obligations.BeginWriteOpensWrite : Prop :=
  ∀ (s : State) (addr : BusAddr),
    (s.state = .ready → exec (.beginWrite addr) s = .next { s with
        tgt := addr, wrOpen := true, mbuf := { s.mbuf with len := 0, cur := 0 }
        outlog := s.outlog ++ [.respond 0x00], fpc := s.fpc + 1 }) ∧
      (s.state ≠ .ready → exec (.beginWrite addr) s = .next s)

/-- R86: in any state of the bus, so between `BEGIN_WRITE` and `END_WRITE` while addressed as a slave too (R123). -/
def Obligations.QueueByteAppends : Prop :=
  ∀ (s : State) (b : Byte),
    (s.wrOpen = true → ∃ t, exec (.queueByte b) s = .next t ∧ s.mbuf.Appended b t.mbuf ∧
        t = { s with
          mbuf := t.mbuf
          outlog := s.outlog ++ [.respond (if s.mbuf.len < s.mbuf.cap then 0x00 else 0x01)], fpc := s.fpc + 1 }) ∧
      (s.wrOpen = false → exec (.queueByte b) s =
        .next { s with fault := some (.queueOutsideWrite (0x300000 ||| b.zeroExtend 24)) })

/-- R87: the checks in their order, then the hold, then the start; `NOWAIT` responds some byte. A held `END_WRITE` (R81)
answers the unchanged state as a next state by the model's choice (log 1). The byte of `NOWAIT` is a free value, and
the counter it advances is the model's own field (logs 9, 11). The layout of `sla` is the spec's general knowledge
(log 16). -/
def Obligations.EndWriteStartsTransmit : Prop :=
  ∀ (s : State) (wait : Bool),
    (s.wrOpen = false → exec (.endWrite wait) s =
        .next { s with fault := some (.endWithoutBegin (if wait then 0x480000 else 0x400000)) }) ∧
      (s.wrOpen = true → s.enabled = false → exec (.endWrite wait) s =
        .next { s with fault := some (.notStarted (if wait then 0x480000 else 0x400000)) }) ∧
      (s.wrOpen = true → s.enabled = true → s.state ≠ .ready → exec (.endWrite wait) s = .next s) ∧
      (s.wrOpen = true → s.enabled = true → s.state = .ready → wait = true → exec (.endWrite wait) s =
        .next { s with
          wrOpen := false, err := .none, sla := s.tgt ++ 0#1, mbuf := { s.mbuf with cur := 0 }, state := .mt
          ackEn := true, outlog := s.outlog ++ [.bus .start none], fgPhase := .waitWrite }) ∧
      (s.wrOpen = true → s.enabled = true → s.state = .ready → wait = false → ∃ v, exec (.endWrite wait) s =
        .next { s with
          wrOpen := false, err := .none, sla := s.tgt ++ 0#1, mbuf := { s.mbuf with cur := 0 }, state := .mt
          ackEn := true, outlog := s.outlog ++ [.bus .start none, .respond v], fpc := s.fpc + 1
          draws := s.draws + 1 })

/-- R88: the checks in their order, then the hold, then the reset of the buffer and, for a clamped count above 0, the
start. A held `REQUEST_READ` (R81) answers the unchanged state as a next state by the model's choice (log 1). The clamp
is by the capacity the master buffer carries (log 7), which is `CAP_M` = 32 by the invariant. The layout of `sla` is
the spec's general knowledge (log 16). -/
def Obligations.RequestReadStartsReceive : Prop :=
  ∀ (s : State) (addr : BusAddr) (n : Byte),
    let k := min n.toNat s.mbuf.cap
    let word : CommandWord := 0x500000 ||| addr.zeroExtend 24 <<< 8 ||| n.zeroExtend 24
    (s.wrOpen = true → exec (.requestRead addr n) s = .next { s with fault := some (.readInsideWrite word) }) ∧
      (s.wrOpen = false → 0 < k → s.enabled = false → exec (.requestRead addr n) s =
        .next { s with fault := some (.notStarted word) }) ∧
      (s.wrOpen = false → (k = 0 ∨ s.enabled = true) → s.state ≠ .ready →
        exec (.requestRead addr n) s = .next s) ∧
      (s.wrOpen = false → k = 0 → s.state = .ready → exec (.requestRead addr n) s =
        .next { s with
          mbuf := { s.mbuf with len := 0, cur := 0 }, outlog := s.outlog ++ [.respond 0x00], fpc := s.fpc + 1 }) ∧
      (s.wrOpen = false → 0 < k → s.enabled = true → s.state = .ready → exec (.requestRead addr n) s =
        .next { s with
          mbuf := { s.mbuf with len := 0, cur := 0 }, err := .none, sla := addr ++ 1#1, mrWant := k, state := .mr
          ackEn := true, outlog := s.outlog ++ [.bus .start none], fgPhase := .waitRead })

/-- R89, R83. The count is taken as its low 8 bits, which is the count itself under the invariant (log 17). -/
def Obligations.AvailableCountsUnread : Prop :=
  ∀ s : State,
    (s.state ≠ .mt → s.state ≠ .mr → exec .available s = .next { s with
        outlog := s.outlog ++ [.respond (BitVec.ofNat 8 (s.mbuf.len - s.mbuf.cur))], fpc := s.fpc + 1 }) ∧
      (s.state = .mt ∨ s.state = .mr → exec .available s =
        .next { s with fault := some (.masterBufferRace 0x600000) })

/-- R90, R83. -/
def Obligations.NextByteDrains : Prop :=
  ∀ s : State,
    (∀ v, s.state ≠ .mt → s.state ≠ .mr → s.mbuf.cur < s.mbuf.len →
        s.readByte .master s.mbuf.cur = some v → exec .nextByte s = .next { s with
          mbuf := { s.mbuf with cur := s.mbuf.cur + 1 }, outlog := s.outlog ++ [.respond v], fpc := s.fpc + 1 }) ∧
      (s.state ≠ .mt → s.state ≠ .mr → s.mbuf.len ≤ s.mbuf.cur → exec .nextByte s = .next { s with
          outlog := s.outlog ++ [.respond 0x00], fpc := s.fpc + 1 }) ∧
      (s.state = .mt ∨ s.state = .mr → exec .nextByte s =
        .next { s with fault := some (.masterBufferRace 0x700000) })

/-! ## Dispatch of events -/

/-- R43, R58: an event outside its accepted states raises `UnexpectedEvent` with the state and the class, and nothing
else changes. -/
def Obligations.UnexpectedEventRaisesFault : Prop :=
  ∀ (s : State) (d : Byte) (cls : EventClass),
    (cls ∈ [EventClass.start, .arbLost] ∧ s.state ≠ .mt ∧ s.state ≠ .mr) ∨
      (cls ∈ [EventClass.mtSlaAck, .mtSlaNack, .mtDataAck, .mtDataNack] ∧ s.state ≠ .mt) ∨
      (cls ∈ [EventClass.mrSlaAck, .mrSlaNack, .mrDataAck, .mrDataNack] ∧ s.state ≠ .mr) ∨
      (cls ∈ [EventClass.srSlaAck, .stSlaAck] ∧ s.state ≠ .ready) ∨
      (cls ∈ [EventClass.srDataAck, .srDataNack, .srStop] ∧ s.state ≠ .sr) ∨
      (cls ∈ [EventClass.stDataAck, .stDataNack, .stLastData] ∧ s.state ≠ .st) →
    exec (cls.instr d) s = .next { s with fault := some (.unexpectedEvent s.state cls) }

/-- R60: the six classes that check the latch raise `AckMismatch` where it disagrees; no other class ever does. -/
def Obligations.AckMismatchRaisesFault : Prop :=
  (∀ (s : State) (d : Byte) (cls : EventClass),
      (cls ∈ [EventClass.mrDataAck] ∧ s.state = .mr ∧ s.ackEn = false) ∨
        (cls ∈ [EventClass.mrDataNack] ∧ s.state = .mr ∧ s.ackEn = true) ∨
        (cls ∈ [EventClass.srDataAck] ∧ s.state = .sr ∧ s.ackEn = false) ∨
        (cls ∈ [EventClass.srDataNack] ∧ s.state = .sr ∧ s.ackEn = true) ∨
        (cls ∈ [EventClass.stDataAck] ∧ s.state = .st ∧ s.ackEn = false) ∨
        (cls ∈ [EventClass.stLastData] ∧ s.state = .st ∧ s.ackEn = true) →
      exec (cls.instr d) s = .next { s with fault := some (.ackMismatch s.state cls s.ackEn) }) ∧
    ∀ (s t : State) (d : Byte) (cls : EventClass),
      cls ∉ [EventClass.mrDataAck, .mrDataNack, .srDataAck, .srDataNack, .stDataAck, .stLastData] →
      s.fault = none → exec (cls.instr d) s = .next t →
      ∀ was c a, t.fault ≠ some (.ackMismatch was c a)

/-- R59, R46: every event that is taken puts out exactly one bus action, and `ack_en` holds the response it armed. -/
def Obligations.EveryEventEmitsOneAction : Prop :=
  ∀ (s t : State) (d : Byte) (cls : EventClass),
    s.fault = none → exec (cls.instr d) s = .next t → t.fault = none →
    ∃ a tx, t.buslog = s.buslog ++ [(a, tx)] ∧ (t.ackEn = false ↔ a = .nack)

/-! ## The master events -/

/-- R61. -/
def Obligations.StartSendsAddressByte : Prop :=
  ∀ s : State,
    (s.state = .mt ∨ s.state = .mr → exec .start s = .next { s with
        ackEn := true, outlog := s.outlog ++ [.bus .ack (some s.sla)] }) ∧
      (s.state = .ready ∨ s.state = .sr ∨ s.state = .st → exec .start s =
        .next { s with fault := some (.unexpectedEvent s.state .start) })

/-- R62: both acknowledges of a master transmit send the next byte, or stop. -/
def Obligations.TransmitAckSendsNextOrStops : Prop :=
  ∀ (s : State) (i : Instr) (cls : EventClass),
    (i = .mtSlaAck ∧ cls = .mtSlaAck) ∨ (i = .mtDataAck ∧ cls = .mtDataAck) →
    (∀ b, s.state = .mt → s.mbuf.cur < s.mbuf.len → s.readByte .master s.mbuf.cur = some b →
        exec i s = .next { s with
          mbuf := { s.mbuf with cur := s.mbuf.cur + 1 }, ackEn := true
          outlog := s.outlog ++ [.bus .ack (some b)] }) ∧
      (s.state = .mt → s.mbuf.len ≤ s.mbuf.cur → exec i s = .next { s with
          state := .ready, ackEn := true, outlog := s.outlog ++ [.bus .stop none] }) ∧
      (s.state ≠ .mt → exec i s = .next { s with fault := some (.unexpectedEvent s.state cls) })

/-- R63, R64, R69: the negative acknowledges latch their error, stop, and end the transaction. -/
def Obligations.MasterNackStopsWithError : Prop :=
  ∀ (s : State) (i : Instr) (cls : EventClass) (role : BusState) (e : TxnError),
    (i = .mtSlaNack ∧ cls = .mtSlaNack ∧ role = .mt ∧ e = .addressNack) ∨
      (i = .mtDataNack ∧ cls = .mtDataNack ∧ role = .mt ∧ e = .dataNack) ∨
      (i = .mrSlaNack ∧ cls = .mrSlaNack ∧ role = .mr ∧ e = .addressNack) →
    (s.state = role → exec i s = .next { s with
        err := e, state := .ready, ackEn := true, outlog := s.outlog ++ [.bus .stop none] }) ∧
      (s.state ≠ role → exec i s = .next { s with fault := some (.unexpectedEvent s.state cls) })

/-- R65: a release and no stop, buffers unchanged. -/
def Obligations.ArbitrationLossReleases : Prop :=
  ∀ s : State,
    (s.state = .mt ∨ s.state = .mr → exec .arbLost s = .next { s with
        err := .arbitrationLost, state := .ready, ackEn := true, outlog := s.outlog ++ [.bus .release none] }) ∧
      (s.state = .ready ∨ s.state = .sr ∨ s.state = .st → exec .arbLost s =
        .next { s with fault := some (.unexpectedEvent s.state .arbLost) })

/-- R66. -/
def Obligations.ReadAddressAckArmsFirstByte : Prop :=
  ∀ s : State,
    (s.state = .mr → exec .mrSlaAck s = .next { s with
        ackEn := decide (s.mbuf.len + 1 < s.mrWant)
        outlog := s.outlog ++ [.bus (if s.mbuf.len + 1 < s.mrWant then .ack else .nack) none] }) ∧
      (s.state ≠ .mr → exec .mrSlaAck s = .next { s with fault := some (.unexpectedEvent s.state .mrSlaAck) })

/-- R67: the byte is stored, then the response to the following one is armed by the new length. -/
def Obligations.ReadDataAckStoresAndArms : Prop :=
  ∀ (s : State) (d : Byte),
    (s.state = .mr → s.ackEn = true → ∃ t, exec (.mrDataAck d) s = .next t ∧ s.mbuf.Appended d t.mbuf ∧
        t = { s with
          mbuf := t.mbuf, ackEn := decide (t.mbuf.len + 1 < s.mrWant)
          outlog := s.outlog ++ [.bus (if t.mbuf.len + 1 < s.mrWant then .ack else .nack) none] }) ∧
      (s.state = .mr → s.ackEn = false → exec (.mrDataAck d) s =
        .next { s with fault := some (.ackMismatch .mr .mrDataAck false) }) ∧
      (s.state ≠ .mr → exec (.mrDataAck d) s = .next { s with fault := some (.unexpectedEvent s.state .mrDataAck) })

/-- R68: the last byte is stored, then stop. -/
def Obligations.ReadDataNackStoresAndStops : Prop :=
  ∀ (s : State) (d : Byte),
    (s.state = .mr → s.ackEn = false → ∃ t, exec (.mrDataNack d) s = .next t ∧ s.mbuf.Appended d t.mbuf ∧
        t = { s with
          mbuf := t.mbuf, state := .ready, ackEn := true, outlog := s.outlog ++ [.bus .stop none] }) ∧
      (s.state = .mr → s.ackEn = true → exec (.mrDataNack d) s =
        .next { s with fault := some (.ackMismatch .mr .mrDataNack true) }) ∧
      (s.state ≠ .mr → exec (.mrDataNack d) s =
        .next { s with fault := some (.unexpectedEvent s.state .mrDataNack) })

/-- R71: in every state. -/
def Obligations.BusErrorStopsInEveryState : Prop :=
  ∀ s : State, exec .busError s = .next { s with
    err := .busError, state := .ready, ackEn := true, outlog := s.outlog ++ [.bus .stop none] }

/-! ## The slave events -/

/-- R73. -/
def Obligations.SlaveReceiveBegins : Prop :=
  ∀ s : State,
    (s.state = .ready → exec .srSlaAck s = .next { s with
        state := .sr, srbuf := { s.srbuf with len := 0, cur := 0 }, ackEn := true
        outlog := s.outlog ++ [.bus .ack none] }) ∧
      (s.state ≠ .ready → exec .srSlaAck s = .next { s with fault := some (.unexpectedEvent s.state .srSlaAck) })

/-- R74: the byte is stored, then the response to the next one is armed by the room left. -/
def Obligations.SlaveReceiveStoresAndArms : Prop :=
  ∀ (s : State) (d : Byte),
    (s.state = .sr → s.ackEn = true → ∃ t, exec (.srDataAck d) s = .next t ∧ s.srbuf.Appended d t.srbuf ∧
        t = { s with
          srbuf := t.srbuf, ackEn := decide (t.srbuf.len < s.srbuf.cap)
          outlog := s.outlog ++ [.bus (if t.srbuf.len < s.srbuf.cap then .ack else .nack) none] }) ∧
      (s.state = .sr → s.ackEn = false → exec (.srDataAck d) s =
        .next { s with fault := some (.ackMismatch .sr .srDataAck false) }) ∧
      (s.state ≠ .sr → exec (.srDataAck d) s = .next { s with fault := some (.unexpectedEvent s.state .srDataAck) })

/-- R75: the byte is discarded. -/
def Obligations.SlaveReceiveDiscardsWhenFull : Prop :=
  ∀ (s : State) (d : Byte),
    (s.state = .sr → s.ackEn = false → exec (.srDataNack d) s = .next { s with
        ackEn := false, outlog := s.outlog ++ [.bus .nack none] }) ∧
      (s.state = .sr → s.ackEn = true → exec (.srDataNack d) s =
        .next { s with fault := some (.ackMismatch .sr .srDataNack true) }) ∧
      (s.state ≠ .sr → exec (.srDataNack d) s =
        .next { s with fault := some (.unexpectedEvent s.state .srDataNack) })

/-- R76: notify with the held bytes, then release; the buffer keeps its contents. The hypothesis that every held byte
was written is part of the invariant. -/
def Obligations.SlaveReceiveEndNotifiesThenReleases : Prop :=
  ∀ s : State,
    (s.state = .sr → (∀ i < s.srbuf.len, (s.readByte .slaveRx i).isSome = true) →
        ∃ bytes : List Byte, bytes.length = s.srbuf.len ∧
          (∀ i < s.srbuf.len, s.readByte .slaveRx i = bytes[i]?) ∧
          exec .srStop s = .next { s with
            state := .ready, ackEn := true, outlog := s.outlog ++ [.notify bytes, .bus .release none] }) ∧
      (s.state ≠ .sr → exec .srStop s = .next { s with fault := some (.unexpectedEvent s.state .srStop) })

/-- R77: the answer of the data source fills the buffer as far as there is room, and its first byte, or the sentinel,
is sent; no other byte of the buffer changes. Where the answer comes from is the model's choice (log 9): the first of
those the environment lists in `txReplies`, else a free value, which advances the counter of log 11. -/
def Obligations.SlaveTransmitBegins : Prop :=
  ∀ s : State,
    (s.state = .ready → ∃ t b a, exec .stSlaAck s = .next t ∧
        (let L := s.drawReply.1
         let n := min L.length s.stbuf.cap
         t = { s.drawReply.2 with
            state := .st, stbuf := t.stbuf, ackEn := decide (1 < n), outlog := s.outlog ++ [.bus a (some b)] } ∧
          t.stbuf.cap = s.stbuf.cap ∧ t.stbuf.len = n ∧ t.stbuf.cur = min 1 n ∧
          (a = if 1 < n then .ack else .nack) ∧ (b = if 0 < n then L.headD 0x00 else 0x00) ∧
          (∀ i < n, t.readByte .slaveTx i = L[i]?) ∧
          ∀ i, n ≤ i → t.readByte .slaveTx i = s.readByte .slaveTx i)) ∧
      (s.state ≠ .ready → exec .stSlaAck s = .next { s with fault := some (.unexpectedEvent s.state .stSlaAck) })

/-- R78, with `BufRead`'s sentinel where no byte is left. -/
def Obligations.SlaveTransmitSendsNext : Prop :=
  ∀ s : State,
    (∀ b, s.state = .st → s.ackEn = true → s.stbuf.cur < s.stbuf.len → s.readByte .slaveTx s.stbuf.cur = some b →
        exec .stDataAck s = .next { s with
          stbuf := { s.stbuf with cur := s.stbuf.cur + 1 }, ackEn := decide (s.stbuf.cur + 1 < s.stbuf.len)
          outlog := s.outlog ++ [.bus (if s.stbuf.cur + 1 < s.stbuf.len then .ack else .nack) (some b)] }) ∧
      (s.state = .st → s.ackEn = true → s.stbuf.len ≤ s.stbuf.cur → exec .stDataAck s = .next { s with
          ackEn := false, outlog := s.outlog ++ [.bus .nack (some 0x00)] }) ∧
      (s.state = .st → s.ackEn = false → exec .stDataAck s =
        .next { s with fault := some (.ackMismatch .st .stDataAck false) }) ∧
      (s.state ≠ .st → exec .stDataAck s = .next { s with fault := some (.unexpectedEvent s.state .stDataAck) })

/-- R79: both ends of a slave transmit release the bus. -/
def Obligations.SlaveTransmitEndReleases : Prop :=
  ∀ s : State,
    (s.state = .st → exec .stDataNack s = .next { s with
        state := .ready, ackEn := true, outlog := s.outlog ++ [.bus .release none] }) ∧
      (s.state = .st → s.ackEn = false → exec .stLastData s = .next { s with
        state := .ready, ackEn := true, outlog := s.outlog ++ [.bus .release none] }) ∧
      (s.state = .st → s.ackEn = true → exec .stLastData s =
        .next { s with fault := some (.ackMismatch .st .stLastData true) }) ∧
      (s.state ≠ .st →
        exec .stDataNack s = .next { s with fault := some (.unexpectedEvent s.state .stDataNack) } ∧
          exec .stLastData s = .next { s with fault := some (.unexpectedEvent s.state .stLastData) })

/-! ## Rules about the whole machine -/

/-- R16, R18, R23: a command changes `state` only from READY to MASTER_TRANSMIT or MASTER_RECEIVE, never sets an error,
and never clears `enabled`. -/
def Obligations.CommandsOnlyStartTransactions : Prop :=
  ∀ (i : Instr) (s t : State), isCommand i = true → exec i s = .next t →
    (t.state = s.state ∨ (s.state = .ready ∧ (t.state = .mt ∨ t.state = .mr))) ∧
      (t.err = s.err ∨ t.err = .none) ∧ (s.enabled = true → t.enabled = true)

/-- R16, R17, R72: an event leaves `state` as it is or ends the transaction in READY, but for a slave address event,
which starts from READY; and an event never touches what only commands write. -/
def Obligations.EventsEndInReady : Prop :=
  ∀ (cls : EventClass) (d : Byte) (s t : State), exec (cls.instr d) s = .next t →
    (t.state = s.state ∨ t.state = .ready ∨ (s.state = .ready ∧ (t.state = .sr ∨ t.state = .st))) ∧
      t.tgt = s.tgt ∧ t.wrOpen = s.wrOpen ∧ t.sla = s.sla ∧ t.mrWant = s.mrWant ∧ t.enabled = s.enabled ∧
      t.divisor = s.divisor ∧ t.fgPhase = s.fgPhase ∧ t.fpc = s.fpc

/-- R27, R33: who reaches which buffer. -/
def Obligations.BuffersAreKeptApart : Prop :=
  ∀ (i : Instr) (s t : State), exec i s = .next t →
    ((∀ d, i ≠ .srDataAck d) → i ≠ .srSlaAck → t.srbuf = s.srbuf) ∧
      (i ≠ .stSlaAck → i ≠ .stDataAck → t.stbuf = s.stbuf) ∧
      (s.state ≠ .mt → s.state ≠ .mr → isCommand i = false → t.mbuf = s.mbuf)

/-- R54, R113: bytes at and past a buffer's `len` are never read: two states that differ in them only take the same
step to states that differ in them only. -/
def Obligations.BytesPastLengthAreNeverRead : Prop :=
  ∀ (i : Instr) (s s' t : State), s.SameHeld s' → exec i s = .next t →
    ∃ t', exec i s' = .next t' ∧ t.SameHeld t'

/-! ## Transactions -/

/-- R66, R67, R21: a read armed as R66 and R67 arm it stays so: the address acknowledge arms it, a stored byte keeps it
armed below `mr_want`, and the store never drops while `mr_want` is within the capacity. -/
def Obligations.ReadStaysArmed : Prop :=
  (∀ s t : State, s.state = .mr → s.mbuf.len < s.mrWant → exec .mrSlaAck s = .next t → t.ReadArmed) ∧
    ∀ (s t : State) (d : Byte), s.ReadArmed → s.mrWant ≤ s.mbuf.cap → s.fault = none →
      exec (.mrDataAck d) s = .next t → t.fault = none → t.ReadArmed ∧ t.mbuf.len = s.mbuf.len + 1

/-- D25, R21: the bound `mbuf.len < mr_want` of R21 rests on PERIPH: a data event delivered straight after START, with no
address event, passes the latch check and breaks the bound (log 13). -/
def Obligations.ReadBoundRestsOnAddressEvent : Prop :=
  ∃ (s t : State) (d : Byte), s.Inv ∧ s.state = .mr ∧ s.mbuf.len < s.mrWant ∧
    exec (.mrDataAck d) s = .next t ∧ t.state = .mr ∧ t.fault = none ∧ ¬ t.mbuf.len < t.mrWant

/-- R70: a master read of `K = bs.length + 1` bytes acknowledges every byte but the last, negative-acknowledges the
last, each decided one event earlier, and captures the bytes in order. -/
def Obligations.MasterReadCapturesInOrder : Prop :=
  ∀ (s : State) (bs : List Byte) (last : Byte), s.state = .mr → s.mbuf.len = 0 → s.mrWant = bs.length + 1 →
    bs.length + 1 ≤ s.mbuf.cap →
    ∃ t, execAll (.mrSlaAck :: (bs.map Instr.mrDataAck ++ [.mrDataNack last])) s = .next t ∧
      t.state = .ready ∧ t.err = s.err ∧ t.mbuf.held = some (bs ++ [last]) ∧ t.mbuf.cur = s.mbuf.cur ∧
      t.buslog = s.buslog ++ (List.replicate bs.length (.ack, none) ++ [(.nack, none), (.stop, none)])

/-- R62 over a whole write: a peer that always acknowledges is sent exactly the queued bytes in order, then a stop,
and no error is latched. -/
def Obligations.MasterWriteSendsInOrder : Prop :=
  ∀ (s : State) (bs : List Byte), s.state = .mt → s.mbuf.cur = 0 → s.mbuf.held = some bs →
    ∃ t, execAll (.mtSlaAck :: List.replicate bs.length .mtDataAck) s = .next t ∧
      t.state = .ready ∧ t.err = s.err ∧ t.mbuf.cur = bs.length ∧ t.mbuf.held = some bs ∧
      t.buslog = s.buslog ++ (bs.map (fun b => (.ack, some b)) ++ [(.stop, none)])

/-- R73 to R76 over a whole slave receive: the bytes that fit are notified in order; the bytes after the buffer filled
are negative-acknowledged and discarded. -/
def Obligations.SlaveReceiveNotifiesWhatFits : Prop :=
  ∀ (s : State) (bs more : List Byte), s.state = .ready → 1 ≤ s.srbuf.cap → bs.length ≤ s.srbuf.cap →
    (more = [] ∨ bs.length = s.srbuf.cap) →
    ∃ t, execAll (.srSlaAck :: (bs.map Instr.srDataAck ++ (more.map Instr.srDataNack ++ [.srStop]))) s = .next t ∧
      t.state = .ready ∧ t.err = s.err ∧ t.notifylog = s.notifylog ++ [bs] ∧
      t.srbuf.held = some bs ∧ t.buslog.length = s.buslog.length + bs.length + more.length + 2

/-- R77 to R79 over a whole slave transmit: the bytes of the data source are sent in order, all but the last with
"more follow", and the bus is released. The answer is the first the environment lists (the model's choice, log 9). -/
def Obligations.SlaveTransmitSendsInOrder : Prop :=
  ∀ (s : State) (bs : List Byte) (last : Byte) (rest : List (List Byte)), s.state = .ready →
    s.txReplies = (bs ++ [last]) :: rest → bs.length + 1 ≤ s.stbuf.cap →
    ∃ t, execAll (.stSlaAck :: (List.replicate bs.length .stDataAck ++ [.stLastData])) s = .next t ∧
      t.state = .ready ∧ t.err = s.err ∧ t.txReplies = rest ∧
      t.buslog = s.buslog ++
        (bs.map (fun b => (.ack, some b)) ++ [(.nack, some last), (.release, none)])

/-- R94: `QUEUE_BYTES` on an open write stores what fits, in order, and drops the rest one by one. -/
def Obligations.QueueBytesStoresWhatFits : Prop :=
  ∀ (s : State) (bs old : List Byte), s.wrOpen = true → s.mbuf.len ≤ s.mbuf.cap → s.mbuf.held = some old →
    ∃ t, execAll (queueBytes bs) s = .next t ∧
      t.mbuf.held = some (old ++ bs.take (s.mbuf.cap - s.mbuf.len)) ∧
      t.responses = s.responses ++
        (List.replicate (min bs.length (s.mbuf.cap - s.mbuf.len)) 0x00 ++
          List.replicate (bs.length - (s.mbuf.cap - s.mbuf.len)) 0x01)

/-- R95, R96: the words of the register adapter's expansions, for every peripheral address, register and value. -/
def Obligations.AdapterExpansionWords : Prop :=
  (∀ (P : BusAddr) (r v : Byte), commandWords (writeRegister P r v) =
      [0x200000 ||| P.zeroExtend 24 <<< 8, 0x300000 ||| r.zeroExtend 24, 0x300000 ||| v.zeroExtend 24, 0x480000]) ∧
    ∀ (P : BusAddr) (r : Byte), commandWords (readRegister P r) =
      [0x200000 ||| P.zeroExtend 24 <<< 8, 0x300000 ||| r.zeroExtend 24, 0x480000,
        0x500001 ||| P.zeroExtend 24 <<< 8, 0x700000]
end

