-- ==== Sys2Proof/Laws/Memory.lean ====
section
/-! SUPPORT. The laws of a buffer's data: read after write, and that every operation keeps the canonical form. -/

namespace Sys2Proof.Machine

@[simp] theorem Memory.read_nil (i : Nat) : Memory.read [] i = none := rfl

theorem Memory.read_write_same (m : Memory) (i : Nat) (b : Byte) : (m.write i b).read i = some b := by
  induction m with
  | nil => simp [Memory.write, Memory.read]
  | cons c rest ih =>
    simp only [Memory.write]
    split
    · next h => simp [Memory.read, Nat.ne_of_lt h, ih]
    · split <;> simp [Memory.read]

theorem Memory.read_write_other (m : Memory) {i j : Nat} (b : Byte) (h : j ≠ i) :
    (m.write i b).read j = m.read j := by
  induction m with
  | nil => simp [Memory.write, Memory.read, Ne.symm h]
  | cons c rest ih =>
    simp only [Memory.write]
    split
    · simp [Memory.read, ih]
    · split
      · next hc => simp [Memory.read, hc, Ne.symm h]
      · simp [Memory.read, Ne.symm h]

/-- A read after a write, at any index. -/
theorem Memory.read_write (m : Memory) (i j : Nat) (b : Byte) :
    (m.write i b).read j = if j = i then some b else m.read j := by
  split
  · next h => rw [h, Memory.read_write_same]
  · next h => exact Memory.read_write_other m b h

/-- What a write lists: the byte written, and otherwise only what was listed. -/
theorem Memory.mem_write {m : Memory} {i : Nat} {b : Byte} {c : Host.Cell} (h : c ∈ m.write i b) :
    c = (i, b) ∨ c ∈ m := by
  induction m with
  | nil => simpa [Memory.write] using h
  | cons d rest ih =>
    simp only [Memory.write] at h
    split at h
    · rcases List.mem_cons.mp h with rfl | h
      · simp
      · rcases ih h with h | h <;> simp [h]
    · split at h <;> simp only [List.mem_cons] at h ⊢ <;> tauto

/-- The canonical form of a list with a head: the head is below the rest, and the rest is canonical. -/
theorem Memory.wf_cons {c : Host.Cell} {rest : Memory} :
    Memory.wf (c :: rest) = true ↔ (∀ d ∈ rest.head?, c.1 < d.1) ∧ rest.wf = true := by
  cases rest <;> simp [Memory.wf]

/-- A write keeps the canonical form. -/
theorem Memory.write_wf {m : Memory} (i : Nat) (b : Byte) (h : m.wf = true) : (m.write i b).wf = true := by
  induction m with
  | nil => rfl
  | cons c rest ih =>
    obtain ⟨hlt, hrest⟩ := Memory.wf_cons.mp h
    simp only [Memory.write]
    split
    · next hc =>
      refine Memory.wf_cons.mpr ⟨?_, ih hrest⟩
      cases rest with
      | nil => simp [Memory.write, hc]
      | cons d rest =>
        have := hlt d (by simp)
        simp only [Memory.write]
        split
        · simpa using this
        · split <;> simp [hc]
    · split
      · next hc =>
        exact Memory.wf_cons.mpr ⟨by rw [← hc]; exact hlt, hrest⟩
      · exact Memory.wf_cons.mpr ⟨by simp; omega, h⟩

/-! ## Reading a range -/

@[simp] theorem Memory.readRange_zero (m : Memory) (i : Nat) : m.readRange i 0 = some [] := rfl

theorem Memory.readRange_succ (m : Memory) (i n : Nat) :
    m.readRange i (n + 1) = (m.read i).bind fun b => (m.readRange (i + 1) n).map (b :: ·) := by
  simp only [Memory.readRange]
  cases m.read i <;> cases m.readRange (i + 1) n <;> rfl

/-- The last byte of a range can be split off. -/
theorem Memory.readRange_snoc (m : Memory) (i n : Nat) :
    m.readRange i (n + 1) = (m.readRange i n).bind fun bs => (m.read (i + n)).map fun b => bs ++ [b] := by
  induction n generalizing i with
  | zero => simp [Memory.readRange_succ]; cases m.read i <;> rfl
  | succ n ih =>
    rw [Memory.readRange_succ, ih (i + 1), Memory.readRange_succ m i n]
    have : i + 1 + n = i + (n + 1) := by omega
    rw [this]
    cases m.read i <;> cases m.readRange (i + 1) n <;> cases m.read (i + (n + 1)) <;> rfl

/-- Two memories that agree on a range read the same there. -/
theorem Memory.readRange_congr {m m' : Memory} {i n : Nat} (h : ∀ j, i ≤ j → j < i + n → m.read j = m'.read j) :
    m.readRange i n = m'.readRange i n := by
  induction n generalizing i with
  | zero => rfl
  | succ n ih =>
    rw [Memory.readRange_succ, Memory.readRange_succ, h i (by omega) (by omega),
      ih fun j h1 h2 => h j (by omega) (by omega)]

/-- A range whose every byte was written can be read. -/
theorem Memory.readRange_isSome {m : Memory} {i n : Nat} (h : ∀ j, i ≤ j → j < i + n → (m.read j).isSome = true) :
    ∃ bs, m.readRange i n = some bs ∧ bs.length = n := by
  induction n generalizing i with
  | zero => exact ⟨[], rfl, rfl⟩
  | succ n ih =>
    obtain ⟨bs, hbs, hlen⟩ := ih (i := i + 1) fun j h1 h2 => h j (by omega) (by omega)
    obtain ⟨b, hb⟩ := Option.isSome_iff_exists.mp (h i (Nat.le_refl i) (by omega))
    exact ⟨b :: bs, by rw [Memory.readRange_succ, hb, hbs]; rfl, by simp [hlen]⟩

/-- The bytes of a range are the bytes at its indices. -/
theorem Memory.readRange_get {m : Memory} {i n : Nat} {bs : List Byte} (h : m.readRange i n = some bs) :
    bs.length = n ∧ ∀ j < n, m.read (i + j) = bs[j]? := by
  induction n generalizing i bs with
  | zero => simp at h; simp [← h]
  | succ n ih =>
    rw [Memory.readRange_succ] at h
    obtain ⟨b, hb, h⟩ := Option.bind_eq_some_iff.mp h
    obtain ⟨rest, hrest, rfl⟩ := Option.map_eq_some_iff.mp h
    obtain ⟨hlen, hget⟩ := ih hrest
    refine ⟨by simp [hlen], fun j hj => ?_⟩
    cases j with
    | zero => simpa using hb
    | succ j =>
      have := hget j (by omega)
      rw [show i + (j + 1) = i + 1 + j by omega, this]
      simp

/-! ## Canonical data at reset -/

/-- The data of every buffer is canonical at reset. -/
theorem reset_memory_wf (sp : Space) : (State.reset.buf sp).data.wf = true := by cases sp <;> rfl

end Sys2Proof.Machine
end

