-- ==== Sys2Proof/Laws/Buf.lean ====
section
/-! SUPPORT. What each buffer primitive does, said once (R52 to R55, R77): callers cite these and unfold no primitive. -/

namespace Sys2Proof.Machine

/-! ## `BufReset` and `BufAvail` -/

@[simp] theorem Buf.bufReset_cap (B : Buf) : B.bufReset.cap = B.cap := rfl
@[simp] theorem Buf.bufReset_data (B : Buf) : B.bufReset.data = B.data := rfl
@[simp] theorem Buf.bufReset_len (B : Buf) : B.bufReset.len = 0 := rfl
@[simp] theorem Buf.bufReset_cur (B : Buf) : B.bufReset.cur = 0 := rfl
@[simp] theorem Buf.bufReset_held (B : Buf) : B.bufReset.held = some [] := rfl

/-! ## `BufWrite` -/

/-- `BufWrite` with room: the byte is stored at `len` (R52). -/
theorem Buf.bufWrite_room {B : Buf} (b : Byte) (h : B.len < B.cap) :
    B.bufWrite b = ({ B with data := B.data.write B.len b, len := B.len + 1 }, false) := by
  simp [Buf.bufWrite, h]

/-- `BufWrite` at capacity: nothing is stored (R52). -/
theorem Buf.bufWrite_full {B : Buf} (b : Byte) (h : ¬ B.len < B.cap) : B.bufWrite b = (B, true) := by
  simp [Buf.bufWrite, h]

@[simp] theorem Buf.bufWrite_cap (B : Buf) (b : Byte) : (B.bufWrite b).1.cap = B.cap := by
  unfold Buf.bufWrite; split <;> rfl

/-- `BufWrite` never writes `cur` (R52). -/
@[simp] theorem Buf.bufWrite_cur (B : Buf) (b : Byte) : (B.bufWrite b).1.cur = B.cur := by
  unfold Buf.bufWrite; split <;> rfl

theorem Buf.bufWrite_len (B : Buf) (b : Byte) :
    (B.bufWrite b).1.len = if B.len < B.cap then B.len + 1 else B.len := by
  unfold Buf.bufWrite; split <;> rfl

/-- No byte but the one at the old `len` changes. -/
theorem Buf.bufWrite_read_other (B : Buf) (b : Byte) {i : Nat} (h : i ≠ B.len) :
    (B.bufWrite b).1.data.read i = B.data.read i := by
  unfold Buf.bufWrite; split
  · exact Memory.read_write_other B.data b h
  · rfl

/-- `BufWrite` keeps the canonical form of the data. -/
theorem Buf.bufWrite_wf {B : Buf} (b : Byte) (h : B.data.wf = true) : (B.bufWrite b).1.data.wf = true := by
  unfold Buf.bufWrite; split
  · exact Memory.write_wf _ b h
  · exact h

/-- The held bytes after a write with room. -/
theorem Buf.bufWrite_held {B : Buf} {bs : List Byte} (b : Byte) (h : B.len < B.cap) (hh : B.held = some bs) :
    (B.bufWrite b).1.held = some (bs ++ [b]) := by
  rw [Buf.bufWrite_room b h]
  unfold Buf.held at *
  rw [Memory.readRange_snoc, Memory.readRange_congr (m' := B.data), hh]
  · simp [Memory.read_write_same]
  · intro j _ h2
    exact Memory.read_write_other _ _ (by omega)

/-! ## `BufRead` -/

/-- `BufRead` of an unread byte (R53). -/
theorem Buf.bufRead_next {B : Buf} {b : Byte} (h : B.cur < B.len) (hb : B.data.read B.cur = some b) :
    B.bufRead = some (b, { B with cur := B.cur + 1 }) := by
  simp [Buf.bufRead, h, hb]

/-- `BufRead` past the end: the sentinel, nothing written (R53). -/
theorem Buf.bufRead_sentinel {B : Buf} (h : ¬ B.cur < B.len) : B.bufRead = some (0x00, B) := by
  simp [Buf.bufRead, h]

/-- Everything a `BufRead` that answers can have done (R53). -/
theorem Buf.bufRead_cases {B B' : Buf} {b : Byte} (h : B.bufRead = some (b, B')) :
    (B.cur < B.len ∧ B.data.read B.cur = some b ∧ B' = { B with cur := B.cur + 1 }) ∨
      (¬ B.cur < B.len ∧ b = 0x00 ∧ B' = B) := by
  unfold Buf.bufRead at h
  split at h
  · next hlt =>
    split at h
    · next v hv =>
      obtain ⟨rfl, rfl⟩ : v = b ∧ { B with cur := B.cur + 1 } = B' := by simpa using h
      exact .inl ⟨hlt, hv, rfl⟩
    · cases h
  · next hlt =>
    obtain ⟨rfl, rfl⟩ : (0x00 : Byte) = b ∧ B = B' := by simpa using h
    exact .inr ⟨hlt, rfl, rfl⟩

/-- A buffer whose held bytes can be read answers every `BufRead`. -/
theorem Buf.bufRead_answers {B : Buf} (h : B.cur < B.len → (B.data.read B.cur).isSome = true) :
    ∃ b B', B.bufRead = some (b, B') := by
  by_cases hlt : B.cur < B.len
  · obtain ⟨b, hb⟩ := Option.isSome_iff_exists.mp (h hlt)
    exact ⟨b, _, Buf.bufRead_next hlt hb⟩
  · exact ⟨_, _, Buf.bufRead_sentinel hlt⟩

/-! ## Filling from the data source (R77) -/

@[simp] theorem Buf.fill_nil (B : Buf) : B.fill [] = B := rfl
@[simp] theorem Buf.fill_cons (B : Buf) (b : Byte) (bs : List Byte) : B.fill (b :: bs) = (B.bufWrite b).1.fill bs := rfl

@[simp] theorem Buf.fill_cap (B : Buf) (L : List Byte) : (B.fill L).cap = B.cap := by
  induction L generalizing B with
  | nil => rfl
  | cons b bs ih => simp [ih]

@[simp] theorem Buf.fill_cur (B : Buf) (L : List Byte) : (B.fill L).cur = B.cur := by
  induction L generalizing B with
  | nil => rfl
  | cons b bs ih => simp [ih]

/-- Filling a full buffer changes nothing. -/
theorem Buf.fill_full {B : Buf} (L : List Byte) (h : ¬ B.len < B.cap) : B.fill L = B := by
  induction L with
  | nil => rfl
  | cons b bs ih => rw [Buf.fill_cons, Buf.bufWrite_full b h, ih]

/-- The number of bytes held after filling: what was held and as many as there is room for. -/
theorem Buf.fill_len {B : Buf} (L : List Byte) (h : B.len ≤ B.cap) :
    (B.fill L).len = min (B.len + L.length) B.cap := by
  induction L generalizing B with
  | nil => simp [h]
  | cons b bs ih =>
    by_cases hlt : B.len < B.cap
    · have hle : (B.bufWrite b).1.len ≤ (B.bufWrite b).1.cap := by
        rw [Buf.bufWrite_len, if_pos hlt, Buf.bufWrite_cap]; exact hlt
      rw [Buf.fill_cons, ih hle]
      simp only [Buf.bufWrite_len, if_pos hlt, Buf.bufWrite_cap, List.length_cons]
      omega
    · rw [Buf.fill_full _ hlt]; simp; omega

/-- The bytes held after filling: what was held, then as many bytes of the list as there is room for. -/
theorem Buf.fill_held {B : Buf} {bs : List Byte} (L : List Byte) (h : B.len ≤ B.cap) (hh : B.held = some bs) :
    (B.fill L).held = some (bs ++ L.take (B.cap - B.len)) := by
  induction L generalizing B bs with
  | nil => simpa using hh
  | cons b L ih =>
    by_cases hlt : B.len < B.cap
    · have hle : (B.bufWrite b).1.len ≤ (B.bufWrite b).1.cap := by
        rw [Buf.bufWrite_len, if_pos hlt, Buf.bufWrite_cap]; exact hlt
      rw [Buf.fill_cons, ih hle (Buf.bufWrite_held b hlt hh)]
      obtain ⟨n, hn⟩ : ∃ n, B.cap - B.len = n + 1 := ⟨B.cap - B.len - 1, by omega⟩
      have : B.cap - (B.len + 1) = n := by omega
      simp [Buf.bufWrite_len, hlt, hn, this]
    · rw [Buf.fill_full _ hlt, hh, show B.cap - B.len = 0 by omega]; simp

/-- Filling writes only at the indices it appends to. -/
theorem Buf.fill_read_other {B : Buf} (L : List Byte) {i : Nat} (h : i < B.len ∨ (B.fill L).len ≤ i) :
    (B.fill L).data.read i = B.data.read i := by
  induction L generalizing B with
  | nil => rfl
  | cons b L ih =>
    by_cases hlt : B.len < B.cap
    · have hlen : (B.bufWrite b).1.len = B.len + 1 := by simp [Buf.bufWrite_len, hlt]
      have hmono : ∀ (L : List Byte) (C : Buf), C.len ≤ (C.fill L).len := by
        intro L
        induction L with
        | nil => intro C; exact Nat.le_refl _
        | cons c L ihL =>
          intro C
          refine Nat.le_trans ?_ (ihL (C.bufWrite c).1)
          rw [Buf.bufWrite_len]; split <;> omega
      have hge := hmono L (B.bufWrite b).1
      rw [Buf.fill_cons] at h ⊢
      rw [ih (by omega), Buf.bufWrite_read_other B b (by omega)]
    · rw [Buf.fill_full _ hlt]

/-- Filling keeps the canonical form of the data. -/
theorem Buf.fill_wf {B : Buf} (L : List Byte) (h : B.data.wf = true) : (B.fill L).data.wf = true := by
  induction L generalizing B with
  | nil => exact h
  | cons b L ih => exact ih (Buf.bufWrite_wf b h)

/-- The held bytes of a buffer do not depend on its cursor. -/
theorem Buf.held_congr {B B' : Buf} (hd : B'.data = B.data) (hl : B'.len = B.len) : B'.held = B.held := by
  simp [Buf.held, hd, hl]

/-- The byte at an index of the held bytes. -/
theorem Buf.held_get {B : Buf} {bs : List Byte} (h : B.held = some bs) :
    bs.length = B.len ∧ ∀ i < B.len, B.data.read i = bs[i]? := by
  have := Memory.readRange_get h
  simpa using this

end Sys2Proof.Machine
end

