-- ==== Sys2Proof/Laws/Encoding.lean ====
section
/-! SUPPORT. The fields of a packed command word: as a number, and read back by the decoder and by `commandWf`. -/

namespace Sys2Proof

theorem append_toNat {m n : Nat} (x : BitVec m) (y : BitVec n) : (x ++ y).toNat = x.toNat * 2 ^ n + y.toNat := by
  rw [BitVec.toNat_append, ← Nat.shiftLeft_add_eq_or_of_lt y.isLt, Nat.shiftLeft_eq]

/-- A packed word as a number (R37). -/
theorem packCommand_toNat (op : BitVec 4) (w : Bool) (addr : BusAddr) (imm : Byte) :
    (packCommand op w addr imm).toNat
      = op.toNat * 2 ^ 20 + w.toNat * 2 ^ 19 + addr.toNat * 2 ^ 8 + imm.toNat := by
  unfold packCommand
  simp only [append_toNat, BitVec.toNat_ofBool, BitVec.toNat_ofNat]
  omega

theorem wordField_pack_op (op : BitVec 4) (w : Bool) (addr : BusAddr) (imm : Byte) :
    wordField (packCommand op w addr imm) 20 4 = op.toNat := by
  unfold wordField; rw [packCommand_toNat]; cases w <;> simp <;> omega

theorem wordField_pack_wait (op : BitVec 4) (w : Bool) (addr : BusAddr) (imm : Byte) :
    wordField (packCommand op w addr imm) 19 1 = w.toNat := by
  unfold wordField; rw [packCommand_toNat]; cases w <;> simp <;> omega

theorem wordField_pack_rsv (op : BitVec 4) (w : Bool) (addr : BusAddr) (imm : Byte) :
    wordField (packCommand op w addr imm) 15 4 = 0 := by
  unfold wordField; rw [packCommand_toNat]; cases w <;> simp <;> omega

theorem wordField_pack_addr (op : BitVec 4) (w : Bool) (addr : BusAddr) (imm : Byte) :
    wordField (packCommand op w addr imm) 8 7 = addr.toNat := by
  unfold wordField; rw [packCommand_toNat]; cases w <;> simp <;> omega

theorem wordField_pack_imm (op : BitVec 4) (w : Bool) (addr : BusAddr) (imm : Byte) :
    wordField (packCommand op w addr imm) 0 8 = imm.toNat := by
  unfold wordField; rw [packCommand_toNat]; cases w <;> simp <;> omega

@[simp] theorem packCommand_addr (op : BitVec 4) (w : Bool) (addr : BusAddr) (imm : Byte) :
    CommandWord.addr (packCommand op w addr imm) = addr := by
  apply BitVec.eq_of_toNat_eq
  simp only [CommandWord.addr, BitVec.extractLsb'_toNat, Nat.shiftRight_eq_div_pow]
  exact wordField_pack_addr op w addr imm

@[simp] theorem packCommand_imm (op : BitVec 4) (w : Bool) (addr : BusAddr) (imm : Byte) :
    CommandWord.imm (packCommand op w addr imm) = imm := by
  apply BitVec.eq_of_toNat_eq
  simp only [CommandWord.imm, BitVec.extractLsb'_toNat, Nat.shiftRight_eq_div_pow]
  exact wordField_pack_imm op w addr imm

end Sys2Proof
end

