-- ==== Sys2Proof/Laws/State.lean ====
section
/-! SUPPORT. For every named update of the state, one lemma a field: what it writes and what it leaves. With them no
proof unfolds a record update. The lists `buslog`, `notifylog` and `responses` follow the one list of outputs. -/

namespace Sys2Proof.Machine

/-! ## `emit` -/

@[simp] theorem State.emit_state (a : BusAct) (tx : Option Byte) (s : State) :
    (s.emit a tx).state = s.state := rfl

@[simp] theorem State.emit_err (a : BusAct) (tx : Option Byte) (s : State) :
    (s.emit a tx).err = s.err := rfl

@[simp] theorem State.emit_tgt (a : BusAct) (tx : Option Byte) (s : State) :
    (s.emit a tx).tgt = s.tgt := rfl

@[simp] theorem State.emit_wrOpen (a : BusAct) (tx : Option Byte) (s : State) :
    (s.emit a tx).wrOpen = s.wrOpen := rfl

@[simp] theorem State.emit_sla (a : BusAct) (tx : Option Byte) (s : State) :
    (s.emit a tx).sla = s.sla := rfl

@[simp] theorem State.emit_mrWant (a : BusAct) (tx : Option Byte) (s : State) :
    (s.emit a tx).mrWant = s.mrWant := rfl

@[simp] theorem State.emit_mbuf (a : BusAct) (tx : Option Byte) (s : State) :
    (s.emit a tx).mbuf = s.mbuf := rfl

@[simp] theorem State.emit_srbuf (a : BusAct) (tx : Option Byte) (s : State) :
    (s.emit a tx).srbuf = s.srbuf := rfl

@[simp] theorem State.emit_stbuf (a : BusAct) (tx : Option Byte) (s : State) :
    (s.emit a tx).stbuf = s.stbuf := rfl

@[simp] theorem State.emit_ackEn (a : BusAct) (tx : Option Byte) (s : State) :
    (s.emit a tx).ackEn = ackAfter a := rfl

@[simp] theorem State.emit_enabled (a : BusAct) (tx : Option Byte) (s : State) :
    (s.emit a tx).enabled = s.enabled := rfl

@[simp] theorem State.emit_divisor (a : BusAct) (tx : Option Byte) (s : State) :
    (s.emit a tx).divisor = s.divisor := rfl

@[simp] theorem State.emit_fgPhase (a : BusAct) (tx : Option Byte) (s : State) :
    (s.emit a tx).fgPhase = s.fgPhase := rfl

@[simp] theorem State.emit_fault (a : BusAct) (tx : Option Byte) (s : State) :
    (s.emit a tx).fault = s.fault := rfl

@[simp] theorem State.emit_refused (a : BusAct) (tx : Option Byte) (s : State) :
    (s.emit a tx).refused = s.refused := rfl

@[simp] theorem State.emit_outlog (a : BusAct) (tx : Option Byte) (s : State) :
    (s.emit a tx).outlog = s.outlog ++ [.bus a tx] := rfl

@[simp] theorem State.emit_program (a : BusAct) (tx : Option Byte) (s : State) :
    (s.emit a tx).program = s.program := rfl

@[simp] theorem State.emit_fpc (a : BusAct) (tx : Option Byte) (s : State) :
    (s.emit a tx).fpc = s.fpc := rfl

@[simp] theorem State.emit_statusMap (a : BusAct) (tx : Option Byte) (s : State) :
    (s.emit a tx).statusMap = s.statusMap := rfl

@[simp] theorem State.emit_events (a : BusAct) (tx : Option Byte) (s : State) :
    (s.emit a tx).events = s.events := rfl

@[simp] theorem State.emit_txReplies (a : BusAct) (tx : Option Byte) (s : State) :
    (s.emit a tx).txReplies = s.txReplies := rfl

@[simp] theorem State.emit_turns (a : BusAct) (tx : Option Byte) (s : State) :
    (s.emit a tx).turns = s.turns := rfl

@[simp] theorem State.emit_draws (a : BusAct) (tx : Option Byte) (s : State) :
    (s.emit a tx).draws = s.draws := rfl

/-! ## `notify` -/

@[simp] theorem State.notify_state (bytes : List Byte) (s : State) :
    (s.notify bytes).state = s.state := rfl

@[simp] theorem State.notify_err (bytes : List Byte) (s : State) :
    (s.notify bytes).err = s.err := rfl

@[simp] theorem State.notify_tgt (bytes : List Byte) (s : State) :
    (s.notify bytes).tgt = s.tgt := rfl

@[simp] theorem State.notify_wrOpen (bytes : List Byte) (s : State) :
    (s.notify bytes).wrOpen = s.wrOpen := rfl

@[simp] theorem State.notify_sla (bytes : List Byte) (s : State) :
    (s.notify bytes).sla = s.sla := rfl

@[simp] theorem State.notify_mrWant (bytes : List Byte) (s : State) :
    (s.notify bytes).mrWant = s.mrWant := rfl

@[simp] theorem State.notify_mbuf (bytes : List Byte) (s : State) :
    (s.notify bytes).mbuf = s.mbuf := rfl

@[simp] theorem State.notify_srbuf (bytes : List Byte) (s : State) :
    (s.notify bytes).srbuf = s.srbuf := rfl

@[simp] theorem State.notify_stbuf (bytes : List Byte) (s : State) :
    (s.notify bytes).stbuf = s.stbuf := rfl

@[simp] theorem State.notify_ackEn (bytes : List Byte) (s : State) :
    (s.notify bytes).ackEn = s.ackEn := rfl

@[simp] theorem State.notify_enabled (bytes : List Byte) (s : State) :
    (s.notify bytes).enabled = s.enabled := rfl

@[simp] theorem State.notify_divisor (bytes : List Byte) (s : State) :
    (s.notify bytes).divisor = s.divisor := rfl

@[simp] theorem State.notify_fgPhase (bytes : List Byte) (s : State) :
    (s.notify bytes).fgPhase = s.fgPhase := rfl

@[simp] theorem State.notify_fault (bytes : List Byte) (s : State) :
    (s.notify bytes).fault = s.fault := rfl

@[simp] theorem State.notify_refused (bytes : List Byte) (s : State) :
    (s.notify bytes).refused = s.refused := rfl

@[simp] theorem State.notify_outlog (bytes : List Byte) (s : State) :
    (s.notify bytes).outlog = s.outlog ++ [.notify bytes] := rfl

@[simp] theorem State.notify_program (bytes : List Byte) (s : State) :
    (s.notify bytes).program = s.program := rfl

@[simp] theorem State.notify_fpc (bytes : List Byte) (s : State) :
    (s.notify bytes).fpc = s.fpc := rfl

@[simp] theorem State.notify_statusMap (bytes : List Byte) (s : State) :
    (s.notify bytes).statusMap = s.statusMap := rfl

@[simp] theorem State.notify_events (bytes : List Byte) (s : State) :
    (s.notify bytes).events = s.events := rfl

@[simp] theorem State.notify_txReplies (bytes : List Byte) (s : State) :
    (s.notify bytes).txReplies = s.txReplies := rfl

@[simp] theorem State.notify_turns (bytes : List Byte) (s : State) :
    (s.notify bytes).turns = s.turns := rfl

@[simp] theorem State.notify_draws (bytes : List Byte) (s : State) :
    (s.notify bytes).draws = s.draws := rfl

/-! ## `respond` -/

@[simp] theorem State.respond_state (v : Byte) (s : State) :
    (s.respond v).state = s.state := rfl

@[simp] theorem State.respond_err (v : Byte) (s : State) :
    (s.respond v).err = s.err := rfl

@[simp] theorem State.respond_tgt (v : Byte) (s : State) :
    (s.respond v).tgt = s.tgt := rfl

@[simp] theorem State.respond_wrOpen (v : Byte) (s : State) :
    (s.respond v).wrOpen = s.wrOpen := rfl

@[simp] theorem State.respond_sla (v : Byte) (s : State) :
    (s.respond v).sla = s.sla := rfl

@[simp] theorem State.respond_mrWant (v : Byte) (s : State) :
    (s.respond v).mrWant = s.mrWant := rfl

@[simp] theorem State.respond_mbuf (v : Byte) (s : State) :
    (s.respond v).mbuf = s.mbuf := rfl

@[simp] theorem State.respond_srbuf (v : Byte) (s : State) :
    (s.respond v).srbuf = s.srbuf := rfl

@[simp] theorem State.respond_stbuf (v : Byte) (s : State) :
    (s.respond v).stbuf = s.stbuf := rfl

@[simp] theorem State.respond_ackEn (v : Byte) (s : State) :
    (s.respond v).ackEn = s.ackEn := rfl

@[simp] theorem State.respond_enabled (v : Byte) (s : State) :
    (s.respond v).enabled = s.enabled := rfl

@[simp] theorem State.respond_divisor (v : Byte) (s : State) :
    (s.respond v).divisor = s.divisor := rfl

@[simp] theorem State.respond_fgPhase (v : Byte) (s : State) :
    (s.respond v).fgPhase = s.fgPhase := rfl

@[simp] theorem State.respond_fault (v : Byte) (s : State) :
    (s.respond v).fault = s.fault := rfl

@[simp] theorem State.respond_refused (v : Byte) (s : State) :
    (s.respond v).refused = s.refused := rfl

@[simp] theorem State.respond_outlog (v : Byte) (s : State) :
    (s.respond v).outlog = s.outlog ++ [.respond v] := rfl

@[simp] theorem State.respond_program (v : Byte) (s : State) :
    (s.respond v).program = s.program := rfl

@[simp] theorem State.respond_fpc (v : Byte) (s : State) :
    (s.respond v).fpc = s.fpc + 1 := rfl

@[simp] theorem State.respond_statusMap (v : Byte) (s : State) :
    (s.respond v).statusMap = s.statusMap := rfl

@[simp] theorem State.respond_events (v : Byte) (s : State) :
    (s.respond v).events = s.events := rfl

@[simp] theorem State.respond_txReplies (v : Byte) (s : State) :
    (s.respond v).txReplies = s.txReplies := rfl

@[simp] theorem State.respond_turns (v : Byte) (s : State) :
    (s.respond v).turns = s.turns := rfl

@[simp] theorem State.respond_draws (v : Byte) (s : State) :
    (s.respond v).draws = s.draws := rfl

/-! ## `finish` -/

@[simp] theorem State.finish_state (a : BusAct) (s : State) :
    (s.finish a).state = .ready := rfl

@[simp] theorem State.finish_err (a : BusAct) (s : State) :
    (s.finish a).err = s.err := rfl

@[simp] theorem State.finish_tgt (a : BusAct) (s : State) :
    (s.finish a).tgt = s.tgt := rfl

@[simp] theorem State.finish_wrOpen (a : BusAct) (s : State) :
    (s.finish a).wrOpen = s.wrOpen := rfl

@[simp] theorem State.finish_sla (a : BusAct) (s : State) :
    (s.finish a).sla = s.sla := rfl

@[simp] theorem State.finish_mrWant (a : BusAct) (s : State) :
    (s.finish a).mrWant = s.mrWant := rfl

@[simp] theorem State.finish_mbuf (a : BusAct) (s : State) :
    (s.finish a).mbuf = s.mbuf := rfl

@[simp] theorem State.finish_srbuf (a : BusAct) (s : State) :
    (s.finish a).srbuf = s.srbuf := rfl

@[simp] theorem State.finish_stbuf (a : BusAct) (s : State) :
    (s.finish a).stbuf = s.stbuf := rfl

@[simp] theorem State.finish_ackEn (a : BusAct) (s : State) :
    (s.finish a).ackEn = ackAfter a := rfl

@[simp] theorem State.finish_enabled (a : BusAct) (s : State) :
    (s.finish a).enabled = s.enabled := rfl

@[simp] theorem State.finish_divisor (a : BusAct) (s : State) :
    (s.finish a).divisor = s.divisor := rfl

@[simp] theorem State.finish_fgPhase (a : BusAct) (s : State) :
    (s.finish a).fgPhase = s.fgPhase := rfl

@[simp] theorem State.finish_fault (a : BusAct) (s : State) :
    (s.finish a).fault = s.fault := rfl

@[simp] theorem State.finish_refused (a : BusAct) (s : State) :
    (s.finish a).refused = s.refused := rfl

@[simp] theorem State.finish_outlog (a : BusAct) (s : State) :
    (s.finish a).outlog = s.outlog ++ [.bus a none] := rfl

@[simp] theorem State.finish_program (a : BusAct) (s : State) :
    (s.finish a).program = s.program := rfl

@[simp] theorem State.finish_fpc (a : BusAct) (s : State) :
    (s.finish a).fpc = s.fpc := rfl

@[simp] theorem State.finish_statusMap (a : BusAct) (s : State) :
    (s.finish a).statusMap = s.statusMap := rfl

@[simp] theorem State.finish_events (a : BusAct) (s : State) :
    (s.finish a).events = s.events := rfl

@[simp] theorem State.finish_txReplies (a : BusAct) (s : State) :
    (s.finish a).txReplies = s.txReplies := rfl

@[simp] theorem State.finish_turns (a : BusAct) (s : State) :
    (s.finish a).turns = s.turns := rfl

@[simp] theorem State.finish_draws (a : BusAct) (s : State) :
    (s.finish a).draws = s.draws := rfl

/-! ## `failWith` -/

@[simp] theorem State.failWith_state (e : TxnError) (a : BusAct) (s : State) :
    (s.failWith e a).state = .ready := rfl

@[simp] theorem State.failWith_err (e : TxnError) (a : BusAct) (s : State) :
    (s.failWith e a).err = e := rfl

@[simp] theorem State.failWith_tgt (e : TxnError) (a : BusAct) (s : State) :
    (s.failWith e a).tgt = s.tgt := rfl

@[simp] theorem State.failWith_wrOpen (e : TxnError) (a : BusAct) (s : State) :
    (s.failWith e a).wrOpen = s.wrOpen := rfl

@[simp] theorem State.failWith_sla (e : TxnError) (a : BusAct) (s : State) :
    (s.failWith e a).sla = s.sla := rfl

@[simp] theorem State.failWith_mrWant (e : TxnError) (a : BusAct) (s : State) :
    (s.failWith e a).mrWant = s.mrWant := rfl

@[simp] theorem State.failWith_mbuf (e : TxnError) (a : BusAct) (s : State) :
    (s.failWith e a).mbuf = s.mbuf := rfl

@[simp] theorem State.failWith_srbuf (e : TxnError) (a : BusAct) (s : State) :
    (s.failWith e a).srbuf = s.srbuf := rfl

@[simp] theorem State.failWith_stbuf (e : TxnError) (a : BusAct) (s : State) :
    (s.failWith e a).stbuf = s.stbuf := rfl

@[simp] theorem State.failWith_ackEn (e : TxnError) (a : BusAct) (s : State) :
    (s.failWith e a).ackEn = ackAfter a := rfl

@[simp] theorem State.failWith_enabled (e : TxnError) (a : BusAct) (s : State) :
    (s.failWith e a).enabled = s.enabled := rfl

@[simp] theorem State.failWith_divisor (e : TxnError) (a : BusAct) (s : State) :
    (s.failWith e a).divisor = s.divisor := rfl

@[simp] theorem State.failWith_fgPhase (e : TxnError) (a : BusAct) (s : State) :
    (s.failWith e a).fgPhase = s.fgPhase := rfl

@[simp] theorem State.failWith_fault (e : TxnError) (a : BusAct) (s : State) :
    (s.failWith e a).fault = s.fault := rfl

@[simp] theorem State.failWith_refused (e : TxnError) (a : BusAct) (s : State) :
    (s.failWith e a).refused = s.refused := rfl

@[simp] theorem State.failWith_outlog (e : TxnError) (a : BusAct) (s : State) :
    (s.failWith e a).outlog = s.outlog ++ [.bus a none] := rfl

@[simp] theorem State.failWith_program (e : TxnError) (a : BusAct) (s : State) :
    (s.failWith e a).program = s.program := rfl

@[simp] theorem State.failWith_fpc (e : TxnError) (a : BusAct) (s : State) :
    (s.failWith e a).fpc = s.fpc := rfl

@[simp] theorem State.failWith_statusMap (e : TxnError) (a : BusAct) (s : State) :
    (s.failWith e a).statusMap = s.statusMap := rfl

@[simp] theorem State.failWith_events (e : TxnError) (a : BusAct) (s : State) :
    (s.failWith e a).events = s.events := rfl

@[simp] theorem State.failWith_txReplies (e : TxnError) (a : BusAct) (s : State) :
    (s.failWith e a).txReplies = s.txReplies := rfl

@[simp] theorem State.failWith_turns (e : TxnError) (a : BusAct) (s : State) :
    (s.failWith e a).turns = s.turns := rfl

@[simp] theorem State.failWith_draws (e : TxnError) (a : BusAct) (s : State) :
    (s.failWith e a).draws = s.draws := rfl

/-! ## `startWrite` -/

@[simp] theorem State.startWrite_state (s : State) :
    (s.startWrite).state = .mt := rfl

@[simp] theorem State.startWrite_err (s : State) :
    (s.startWrite).err = .none := rfl

@[simp] theorem State.startWrite_tgt (s : State) :
    (s.startWrite).tgt = s.tgt := rfl

@[simp] theorem State.startWrite_wrOpen (s : State) :
    (s.startWrite).wrOpen = false := rfl

@[simp] theorem State.startWrite_sla (s : State) :
    (s.startWrite).sla = slaByte s.tgt false := rfl

@[simp] theorem State.startWrite_mrWant (s : State) :
    (s.startWrite).mrWant = s.mrWant := rfl

@[simp] theorem State.startWrite_mbuf (s : State) :
    (s.startWrite).mbuf = { s.mbuf with cur := 0 } := rfl

@[simp] theorem State.startWrite_srbuf (s : State) :
    (s.startWrite).srbuf = s.srbuf := rfl

@[simp] theorem State.startWrite_stbuf (s : State) :
    (s.startWrite).stbuf = s.stbuf := rfl

@[simp] theorem State.startWrite_ackEn (s : State) :
    (s.startWrite).ackEn = true := rfl

@[simp] theorem State.startWrite_enabled (s : State) :
    (s.startWrite).enabled = s.enabled := rfl

@[simp] theorem State.startWrite_divisor (s : State) :
    (s.startWrite).divisor = s.divisor := rfl

@[simp] theorem State.startWrite_fgPhase (s : State) :
    (s.startWrite).fgPhase = s.fgPhase := rfl

@[simp] theorem State.startWrite_fault (s : State) :
    (s.startWrite).fault = s.fault := rfl

@[simp] theorem State.startWrite_refused (s : State) :
    (s.startWrite).refused = s.refused := rfl

@[simp] theorem State.startWrite_outlog (s : State) :
    (s.startWrite).outlog = s.outlog ++ [.bus .start none] := rfl

@[simp] theorem State.startWrite_program (s : State) :
    (s.startWrite).program = s.program := rfl

@[simp] theorem State.startWrite_fpc (s : State) :
    (s.startWrite).fpc = s.fpc := rfl

@[simp] theorem State.startWrite_statusMap (s : State) :
    (s.startWrite).statusMap = s.statusMap := rfl

@[simp] theorem State.startWrite_events (s : State) :
    (s.startWrite).events = s.events := rfl

@[simp] theorem State.startWrite_txReplies (s : State) :
    (s.startWrite).txReplies = s.txReplies := rfl

@[simp] theorem State.startWrite_turns (s : State) :
    (s.startWrite).turns = s.turns := rfl

@[simp] theorem State.startWrite_draws (s : State) :
    (s.startWrite).draws = s.draws := rfl

/-! ## `startRead` -/

@[simp] theorem State.startRead_state (addr : BusAddr) (k : Nat) (s : State) :
    (s.startRead addr k).state = .mr := rfl

@[simp] theorem State.startRead_err (addr : BusAddr) (k : Nat) (s : State) :
    (s.startRead addr k).err = .none := rfl

@[simp] theorem State.startRead_tgt (addr : BusAddr) (k : Nat) (s : State) :
    (s.startRead addr k).tgt = s.tgt := rfl

@[simp] theorem State.startRead_wrOpen (addr : BusAddr) (k : Nat) (s : State) :
    (s.startRead addr k).wrOpen = s.wrOpen := rfl

@[simp] theorem State.startRead_sla (addr : BusAddr) (k : Nat) (s : State) :
    (s.startRead addr k).sla = slaByte addr true := rfl

@[simp] theorem State.startRead_mrWant (addr : BusAddr) (k : Nat) (s : State) :
    (s.startRead addr k).mrWant = k := rfl

@[simp] theorem State.startRead_mbuf (addr : BusAddr) (k : Nat) (s : State) :
    (s.startRead addr k).mbuf = s.mbuf := rfl

@[simp] theorem State.startRead_srbuf (addr : BusAddr) (k : Nat) (s : State) :
    (s.startRead addr k).srbuf = s.srbuf := rfl

@[simp] theorem State.startRead_stbuf (addr : BusAddr) (k : Nat) (s : State) :
    (s.startRead addr k).stbuf = s.stbuf := rfl

@[simp] theorem State.startRead_ackEn (addr : BusAddr) (k : Nat) (s : State) :
    (s.startRead addr k).ackEn = true := rfl

@[simp] theorem State.startRead_enabled (addr : BusAddr) (k : Nat) (s : State) :
    (s.startRead addr k).enabled = s.enabled := rfl

@[simp] theorem State.startRead_divisor (addr : BusAddr) (k : Nat) (s : State) :
    (s.startRead addr k).divisor = s.divisor := rfl

@[simp] theorem State.startRead_fgPhase (addr : BusAddr) (k : Nat) (s : State) :
    (s.startRead addr k).fgPhase = .waitRead := rfl

@[simp] theorem State.startRead_fault (addr : BusAddr) (k : Nat) (s : State) :
    (s.startRead addr k).fault = s.fault := rfl

@[simp] theorem State.startRead_refused (addr : BusAddr) (k : Nat) (s : State) :
    (s.startRead addr k).refused = s.refused := rfl

@[simp] theorem State.startRead_outlog (addr : BusAddr) (k : Nat) (s : State) :
    (s.startRead addr k).outlog = s.outlog ++ [.bus .start none] := rfl

@[simp] theorem State.startRead_program (addr : BusAddr) (k : Nat) (s : State) :
    (s.startRead addr k).program = s.program := rfl

@[simp] theorem State.startRead_fpc (addr : BusAddr) (k : Nat) (s : State) :
    (s.startRead addr k).fpc = s.fpc := rfl

@[simp] theorem State.startRead_statusMap (addr : BusAddr) (k : Nat) (s : State) :
    (s.startRead addr k).statusMap = s.statusMap := rfl

@[simp] theorem State.startRead_events (addr : BusAddr) (k : Nat) (s : State) :
    (s.startRead addr k).events = s.events := rfl

@[simp] theorem State.startRead_txReplies (addr : BusAddr) (k : Nat) (s : State) :
    (s.startRead addr k).txReplies = s.txReplies := rfl

@[simp] theorem State.startRead_turns (addr : BusAddr) (k : Nat) (s : State) :
    (s.startRead addr k).turns = s.turns := rfl

@[simp] theorem State.startRead_draws (addr : BusAddr) (k : Nat) (s : State) :
    (s.startRead addr k).draws = s.draws := rfl

/-! ## `armRead` -/

@[simp] theorem State.armRead_state (s : State) :
    (s.armRead).state = s.state := rfl

@[simp] theorem State.armRead_err (s : State) :
    (s.armRead).err = s.err := rfl

@[simp] theorem State.armRead_tgt (s : State) :
    (s.armRead).tgt = s.tgt := rfl

@[simp] theorem State.armRead_wrOpen (s : State) :
    (s.armRead).wrOpen = s.wrOpen := rfl

@[simp] theorem State.armRead_sla (s : State) :
    (s.armRead).sla = s.sla := rfl

@[simp] theorem State.armRead_mrWant (s : State) :
    (s.armRead).mrWant = s.mrWant := rfl

@[simp] theorem State.armRead_mbuf (s : State) :
    (s.armRead).mbuf = s.mbuf := rfl

@[simp] theorem State.armRead_srbuf (s : State) :
    (s.armRead).srbuf = s.srbuf := rfl

@[simp] theorem State.armRead_stbuf (s : State) :
    (s.armRead).stbuf = s.stbuf := rfl

@[simp] theorem State.armRead_ackEn (s : State) :
    (s.armRead).ackEn = ackAfter (armFor (decide (s.mbuf.len + 1 < s.mrWant))) := rfl

@[simp] theorem State.armRead_enabled (s : State) :
    (s.armRead).enabled = s.enabled := rfl

@[simp] theorem State.armRead_divisor (s : State) :
    (s.armRead).divisor = s.divisor := rfl

@[simp] theorem State.armRead_fgPhase (s : State) :
    (s.armRead).fgPhase = s.fgPhase := rfl

@[simp] theorem State.armRead_fault (s : State) :
    (s.armRead).fault = s.fault := rfl

@[simp] theorem State.armRead_refused (s : State) :
    (s.armRead).refused = s.refused := rfl

@[simp] theorem State.armRead_outlog (s : State) :
    (s.armRead).outlog = s.outlog ++ [.bus (armFor (decide (s.mbuf.len + 1 < s.mrWant))) none] := rfl

@[simp] theorem State.armRead_program (s : State) :
    (s.armRead).program = s.program := rfl

@[simp] theorem State.armRead_fpc (s : State) :
    (s.armRead).fpc = s.fpc := rfl

@[simp] theorem State.armRead_statusMap (s : State) :
    (s.armRead).statusMap = s.statusMap := rfl

@[simp] theorem State.armRead_events (s : State) :
    (s.armRead).events = s.events := rfl

@[simp] theorem State.armRead_txReplies (s : State) :
    (s.armRead).txReplies = s.txReplies := rfl

@[simp] theorem State.armRead_turns (s : State) :
    (s.armRead).turns = s.turns := rfl

@[simp] theorem State.armRead_draws (s : State) :
    (s.armRead).draws = s.draws := rfl

/-! ## `armSlave` -/

@[simp] theorem State.armSlave_state (s : State) :
    (s.armSlave).state = s.state := rfl

@[simp] theorem State.armSlave_err (s : State) :
    (s.armSlave).err = s.err := rfl

@[simp] theorem State.armSlave_tgt (s : State) :
    (s.armSlave).tgt = s.tgt := rfl

@[simp] theorem State.armSlave_wrOpen (s : State) :
    (s.armSlave).wrOpen = s.wrOpen := rfl

@[simp] theorem State.armSlave_sla (s : State) :
    (s.armSlave).sla = s.sla := rfl

@[simp] theorem State.armSlave_mrWant (s : State) :
    (s.armSlave).mrWant = s.mrWant := rfl

@[simp] theorem State.armSlave_mbuf (s : State) :
    (s.armSlave).mbuf = s.mbuf := rfl

@[simp] theorem State.armSlave_srbuf (s : State) :
    (s.armSlave).srbuf = s.srbuf := rfl

@[simp] theorem State.armSlave_stbuf (s : State) :
    (s.armSlave).stbuf = s.stbuf := rfl

@[simp] theorem State.armSlave_ackEn (s : State) :
    (s.armSlave).ackEn = ackAfter (armFor (decide (s.srbuf.len < s.srbuf.cap))) := rfl

@[simp] theorem State.armSlave_enabled (s : State) :
    (s.armSlave).enabled = s.enabled := rfl

@[simp] theorem State.armSlave_divisor (s : State) :
    (s.armSlave).divisor = s.divisor := rfl

@[simp] theorem State.armSlave_fgPhase (s : State) :
    (s.armSlave).fgPhase = s.fgPhase := rfl

@[simp] theorem State.armSlave_fault (s : State) :
    (s.armSlave).fault = s.fault := rfl

@[simp] theorem State.armSlave_refused (s : State) :
    (s.armSlave).refused = s.refused := rfl

@[simp] theorem State.armSlave_outlog (s : State) :
    (s.armSlave).outlog = s.outlog ++ [.bus (armFor (decide (s.srbuf.len < s.srbuf.cap))) none] := rfl

@[simp] theorem State.armSlave_program (s : State) :
    (s.armSlave).program = s.program := rfl

@[simp] theorem State.armSlave_fpc (s : State) :
    (s.armSlave).fpc = s.fpc := rfl

@[simp] theorem State.armSlave_statusMap (s : State) :
    (s.armSlave).statusMap = s.statusMap := rfl

@[simp] theorem State.armSlave_events (s : State) :
    (s.armSlave).events = s.events := rfl

@[simp] theorem State.armSlave_txReplies (s : State) :
    (s.armSlave).txReplies = s.txReplies := rfl

@[simp] theorem State.armSlave_turns (s : State) :
    (s.armSlave).turns = s.turns := rfl

@[simp] theorem State.armSlave_draws (s : State) :
    (s.armSlave).draws = s.draws := rfl

/-! ## `drawByte` -/

@[simp] theorem State.drawByte_state (s : State) :
    (s.drawByte.2).state = s.state := rfl

@[simp] theorem State.drawByte_err (s : State) :
    (s.drawByte.2).err = s.err := rfl

@[simp] theorem State.drawByte_tgt (s : State) :
    (s.drawByte.2).tgt = s.tgt := rfl

@[simp] theorem State.drawByte_wrOpen (s : State) :
    (s.drawByte.2).wrOpen = s.wrOpen := rfl

@[simp] theorem State.drawByte_sla (s : State) :
    (s.drawByte.2).sla = s.sla := rfl

@[simp] theorem State.drawByte_mrWant (s : State) :
    (s.drawByte.2).mrWant = s.mrWant := rfl

@[simp] theorem State.drawByte_mbuf (s : State) :
    (s.drawByte.2).mbuf = s.mbuf := rfl

@[simp] theorem State.drawByte_srbuf (s : State) :
    (s.drawByte.2).srbuf = s.srbuf := rfl

@[simp] theorem State.drawByte_stbuf (s : State) :
    (s.drawByte.2).stbuf = s.stbuf := rfl

@[simp] theorem State.drawByte_ackEn (s : State) :
    (s.drawByte.2).ackEn = s.ackEn := rfl

@[simp] theorem State.drawByte_enabled (s : State) :
    (s.drawByte.2).enabled = s.enabled := rfl

@[simp] theorem State.drawByte_divisor (s : State) :
    (s.drawByte.2).divisor = s.divisor := rfl

@[simp] theorem State.drawByte_fgPhase (s : State) :
    (s.drawByte.2).fgPhase = s.fgPhase := rfl

@[simp] theorem State.drawByte_fault (s : State) :
    (s.drawByte.2).fault = s.fault := rfl

@[simp] theorem State.drawByte_refused (s : State) :
    (s.drawByte.2).refused = s.refused := rfl

@[simp] theorem State.drawByte_outlog (s : State) :
    (s.drawByte.2).outlog = s.outlog := rfl

@[simp] theorem State.drawByte_program (s : State) :
    (s.drawByte.2).program = s.program := rfl

@[simp] theorem State.drawByte_fpc (s : State) :
    (s.drawByte.2).fpc = s.fpc := rfl

@[simp] theorem State.drawByte_statusMap (s : State) :
    (s.drawByte.2).statusMap = s.statusMap := rfl

@[simp] theorem State.drawByte_events (s : State) :
    (s.drawByte.2).events = s.events := rfl

@[simp] theorem State.drawByte_txReplies (s : State) :
    (s.drawByte.2).txReplies = s.txReplies := rfl

@[simp] theorem State.drawByte_turns (s : State) :
    (s.drawByte.2).turns = s.turns := rfl

@[simp] theorem State.drawByte_draws (s : State) :
    (s.drawByte.2).draws = s.draws + 1 := rfl

/-! ## `drawReply` -/

@[simp] theorem State.drawReply_state (s : State) :
    (s.drawReply.2).state = s.state := by unfold State.drawReply; split <;> rfl

@[simp] theorem State.drawReply_err (s : State) :
    (s.drawReply.2).err = s.err := by unfold State.drawReply; split <;> rfl

@[simp] theorem State.drawReply_tgt (s : State) :
    (s.drawReply.2).tgt = s.tgt := by unfold State.drawReply; split <;> rfl

@[simp] theorem State.drawReply_wrOpen (s : State) :
    (s.drawReply.2).wrOpen = s.wrOpen := by unfold State.drawReply; split <;> rfl

@[simp] theorem State.drawReply_sla (s : State) :
    (s.drawReply.2).sla = s.sla := by unfold State.drawReply; split <;> rfl

@[simp] theorem State.drawReply_mrWant (s : State) :
    (s.drawReply.2).mrWant = s.mrWant := by unfold State.drawReply; split <;> rfl

@[simp] theorem State.drawReply_mbuf (s : State) :
    (s.drawReply.2).mbuf = s.mbuf := by unfold State.drawReply; split <;> rfl

@[simp] theorem State.drawReply_srbuf (s : State) :
    (s.drawReply.2).srbuf = s.srbuf := by unfold State.drawReply; split <;> rfl

@[simp] theorem State.drawReply_stbuf (s : State) :
    (s.drawReply.2).stbuf = s.stbuf := by unfold State.drawReply; split <;> rfl

@[simp] theorem State.drawReply_ackEn (s : State) :
    (s.drawReply.2).ackEn = s.ackEn := by unfold State.drawReply; split <;> rfl

@[simp] theorem State.drawReply_enabled (s : State) :
    (s.drawReply.2).enabled = s.enabled := by unfold State.drawReply; split <;> rfl

@[simp] theorem State.drawReply_divisor (s : State) :
    (s.drawReply.2).divisor = s.divisor := by unfold State.drawReply; split <;> rfl

@[simp] theorem State.drawReply_fgPhase (s : State) :
    (s.drawReply.2).fgPhase = s.fgPhase := by unfold State.drawReply; split <;> rfl

@[simp] theorem State.drawReply_fault (s : State) :
    (s.drawReply.2).fault = s.fault := by unfold State.drawReply; split <;> rfl

@[simp] theorem State.drawReply_refused (s : State) :
    (s.drawReply.2).refused = s.refused := by unfold State.drawReply; split <;> rfl

@[simp] theorem State.drawReply_outlog (s : State) :
    (s.drawReply.2).outlog = s.outlog := by unfold State.drawReply; split <;> rfl

@[simp] theorem State.drawReply_program (s : State) :
    (s.drawReply.2).program = s.program := by unfold State.drawReply; split <;> rfl

@[simp] theorem State.drawReply_fpc (s : State) :
    (s.drawReply.2).fpc = s.fpc := by unfold State.drawReply; split <;> rfl

@[simp] theorem State.drawReply_statusMap (s : State) :
    (s.drawReply.2).statusMap = s.statusMap := by unfold State.drawReply; split <;> rfl

@[simp] theorem State.drawReply_events (s : State) :
    (s.drawReply.2).events = s.events := by unfold State.drawReply; split <;> rfl

@[simp] theorem State.drawReply_turns (s : State) :
    (s.drawReply.2).turns = s.turns := by unfold State.drawReply; split <;> rfl

/-! ## `drawTurn` -/

@[simp] theorem State.drawTurn_state (s : State) :
    (s.drawTurn.2).state = s.state := by unfold State.drawTurn; split <;> rfl

@[simp] theorem State.drawTurn_err (s : State) :
    (s.drawTurn.2).err = s.err := by unfold State.drawTurn; split <;> rfl

@[simp] theorem State.drawTurn_tgt (s : State) :
    (s.drawTurn.2).tgt = s.tgt := by unfold State.drawTurn; split <;> rfl

@[simp] theorem State.drawTurn_wrOpen (s : State) :
    (s.drawTurn.2).wrOpen = s.wrOpen := by unfold State.drawTurn; split <;> rfl

@[simp] theorem State.drawTurn_sla (s : State) :
    (s.drawTurn.2).sla = s.sla := by unfold State.drawTurn; split <;> rfl

@[simp] theorem State.drawTurn_mrWant (s : State) :
    (s.drawTurn.2).mrWant = s.mrWant := by unfold State.drawTurn; split <;> rfl

@[simp] theorem State.drawTurn_mbuf (s : State) :
    (s.drawTurn.2).mbuf = s.mbuf := by unfold State.drawTurn; split <;> rfl

@[simp] theorem State.drawTurn_srbuf (s : State) :
    (s.drawTurn.2).srbuf = s.srbuf := by unfold State.drawTurn; split <;> rfl

@[simp] theorem State.drawTurn_stbuf (s : State) :
    (s.drawTurn.2).stbuf = s.stbuf := by unfold State.drawTurn; split <;> rfl

@[simp] theorem State.drawTurn_ackEn (s : State) :
    (s.drawTurn.2).ackEn = s.ackEn := by unfold State.drawTurn; split <;> rfl

@[simp] theorem State.drawTurn_enabled (s : State) :
    (s.drawTurn.2).enabled = s.enabled := by unfold State.drawTurn; split <;> rfl

@[simp] theorem State.drawTurn_divisor (s : State) :
    (s.drawTurn.2).divisor = s.divisor := by unfold State.drawTurn; split <;> rfl

@[simp] theorem State.drawTurn_fgPhase (s : State) :
    (s.drawTurn.2).fgPhase = s.fgPhase := by unfold State.drawTurn; split <;> rfl

@[simp] theorem State.drawTurn_fault (s : State) :
    (s.drawTurn.2).fault = s.fault := by unfold State.drawTurn; split <;> rfl

@[simp] theorem State.drawTurn_refused (s : State) :
    (s.drawTurn.2).refused = s.refused := by unfold State.drawTurn; split <;> rfl

@[simp] theorem State.drawTurn_outlog (s : State) :
    (s.drawTurn.2).outlog = s.outlog := by unfold State.drawTurn; split <;> rfl

@[simp] theorem State.drawTurn_program (s : State) :
    (s.drawTurn.2).program = s.program := by unfold State.drawTurn; split <;> rfl

@[simp] theorem State.drawTurn_fpc (s : State) :
    (s.drawTurn.2).fpc = s.fpc := by unfold State.drawTurn; split <;> rfl

@[simp] theorem State.drawTurn_statusMap (s : State) :
    (s.drawTurn.2).statusMap = s.statusMap := by unfold State.drawTurn; split <;> rfl

@[simp] theorem State.drawTurn_events (s : State) :
    (s.drawTurn.2).events = s.events := by unfold State.drawTurn; split <;> rfl

@[simp] theorem State.drawTurn_txReplies (s : State) :
    (s.drawTurn.2).txReplies = s.txReplies := by unfold State.drawTurn; split <;> rfl

/-! ## The draws -/

@[simp] theorem State.drawReply_listed {s : State} {L : List Byte} {rest : List (List Byte)}
    (h : s.txReplies = L :: rest) : s.drawReply = (L, { s with txReplies := rest }) := by
  simp [State.drawReply, h]

@[simp] theorem State.drawTurn_listed {s : State} {a : Agent} {rest : List Agent} (h : s.turns = a :: rest) :
    s.drawTurn = (a, { s with turns := rest }) := by
  simp [State.drawTurn, h]

/-! ## The output lists -/

@[simp] theorem Output.bus?_bus (a : BusAct) (tx : Option Byte) : (Output.bus a tx).bus? = some (a, tx) := rfl
@[simp] theorem Output.bus?_notify (bytes : List Byte) : (Output.notify bytes).bus? = none := rfl
@[simp] theorem Output.bus?_respond (v : Byte) : (Output.respond v).bus? = none := rfl
@[simp] theorem Output.notify?_bus (a : BusAct) (tx : Option Byte) : (Output.bus a tx).notify? = none := rfl
@[simp] theorem Output.notify?_notify (bytes : List Byte) : (Output.notify bytes).notify? = some bytes := rfl
@[simp] theorem Output.notify?_respond (v : Byte) : (Output.respond v).notify? = none := rfl
@[simp] theorem Output.respond?_bus (a : BusAct) (tx : Option Byte) : (Output.bus a tx).respond? = none := rfl
@[simp] theorem Output.respond?_notify (bytes : List Byte) : (Output.notify bytes).respond? = none := rfl
@[simp] theorem Output.respond?_respond (v : Byte) : (Output.respond v).respond? = some v := rfl

@[simp] theorem ackAfter_armFor (more : Bool) : ackAfter (armFor more) = more := by cases more <;> rfl

@[simp] theorem State.emit_buslog (a : BusAct) (tx : Option Byte) (s : State) :
    (s.emit a tx).buslog = s.buslog ++ [(a, tx)] := by
  simp [State.buslog]

@[simp] theorem State.emit_notifylog (a : BusAct) (tx : Option Byte) (s : State) :
    (s.emit a tx).notifylog = s.notifylog := by
  simp [State.notifylog]

@[simp] theorem State.emit_responses (a : BusAct) (tx : Option Byte) (s : State) :
    (s.emit a tx).responses = s.responses := by
  simp [State.responses]

@[simp] theorem State.notify_buslog (bytes : List Byte) (s : State) : (s.notify bytes).buslog = s.buslog := by
  simp [State.buslog]

@[simp] theorem State.notify_notifylog (bytes : List Byte) (s : State) :
    (s.notify bytes).notifylog = s.notifylog ++ [bytes] := by
  simp [State.notifylog]

@[simp] theorem State.notify_responses (bytes : List Byte) (s : State) :
    (s.notify bytes).responses = s.responses := by
  simp [State.responses]

@[simp] theorem State.respond_buslog (v : Byte) (s : State) : (s.respond v).buslog = s.buslog := by
  simp [State.buslog]

@[simp] theorem State.respond_notifylog (v : Byte) (s : State) : (s.respond v).notifylog = s.notifylog := by
  simp [State.notifylog]

@[simp] theorem State.respond_responses (v : Byte) (s : State) :
    (s.respond v).responses = s.responses ++ [v] := by
  simp [State.responses]

@[simp] theorem State.finish_buslog (a : BusAct) (s : State) : (s.finish a).buslog = s.buslog ++ [(a, none)] := by
  simp [State.buslog]

@[simp] theorem State.finish_notifylog (a : BusAct) (s : State) : (s.finish a).notifylog = s.notifylog := by
  simp [State.notifylog]

@[simp] theorem State.failWith_buslog (e : TxnError) (a : BusAct) (s : State) :
    (s.failWith e a).buslog = s.buslog ++ [(a, none)] := by
  simp [State.buslog]

@[simp] theorem State.armRead_buslog (s : State) :
    s.armRead.buslog = s.buslog ++ [(armFor (decide (s.mbuf.len + 1 < s.mrWant)), none)] := by
  simp [State.buslog]

@[simp] theorem State.armSlave_buslog (s : State) :
    s.armSlave.buslog = s.buslog ++ [(armFor (decide (s.srbuf.len < s.srbuf.cap)), none)] := by
  simp [State.buslog]

/-- The output lists read nothing but the list of outputs. -/
theorem State.buslog_congr {s t : State} (h : t.outlog = s.outlog) : t.buslog = s.buslog := by
  simp [State.buslog, h]

theorem State.notifylog_congr {s t : State} (h : t.outlog = s.outlog) : t.notifylog = s.notifylog := by
  simp [State.notifylog, h]

theorem State.responses_congr {s t : State} (h : t.outlog = s.outlog) : t.responses = s.responses := by
  simp [State.responses, h]

end Sys2Proof.Machine
end

