-- ==== Sys2Proof/Laws/Ops.lean ====
section
/-! SUPPORT. One lemma for each shared operation that says everything it can do: the provers cite these instead of
unfolding dispatch, the sends, the turns or the step. -/

namespace Sys2Proof.Machine

/-! ## Raising, refusing, holding (R101, R81) -/

@[simp] theorem raise_next {r : FaultRecord} {s t : State} :
    raise r s = .next t ↔ t = { s with fault := some r } := by
  simp [raise, eq_comm]

@[simp] theorem refuse_next {r : RefusalRecord} {s t : State} :
    refuse r s = .next t ↔ t = { s with refused := some r } := by
  simp [refuse, eq_comm]

@[simp] theorem hold_next {s t : State} : hold s = .next t ↔ t = s := by
  simp [hold, eq_comm]

/-! ## Dispatch (R58) -/

/-- An accepted event whose latch agrees runs its rule. -/
theorem dispatch_runs {cls : EventClass} {rule : State → Host.Outcome State Fault Refusal} {s : State}
    (ha : s.state ∈ acceptedIn cls) (hl : ∀ a, latchRequired cls = some a → s.ackEn = a) :
    dispatch cls rule s = rule s := by
  unfold dispatch
  rw [if_pos ha]
  split
  · next a h => rw [if_pos (hl a h)]
  · rfl

/-- An event outside its accepted states raises `UnexpectedEvent`. -/
theorem dispatch_unexpected {cls : EventClass} {rule : State → Host.Outcome State Fault Refusal} {s : State}
    (ha : s.state ∉ acceptedIn cls) : dispatch cls rule s = raise (.unexpectedEvent s.state cls) s := by
  simp [dispatch, ha]

/-- An accepted event that disagrees with the latch raises `AckMismatch`. -/
theorem dispatch_mismatch {cls : EventClass} {rule : State → Host.Outcome State Fault Refusal} {s : State} {a : Bool}
    (ha : s.state ∈ acceptedIn cls) (hr : latchRequired cls = some a) (hl : s.ackEn ≠ a) :
    dispatch cls rule s = raise (.ackMismatch s.state cls s.ackEn) s := by
  simp [dispatch, ha, hr, hl]

/-- Everything a dispatched event can do. -/
theorem dispatch_cases (cls : EventClass) (rule : State → Host.Outcome State Fault Refusal) (s : State) :
    (s.state ∈ acceptedIn cls ∧ (∀ a, latchRequired cls = some a → s.ackEn = a) ∧ dispatch cls rule s = rule s) ∨
      (s.state ∉ acceptedIn cls ∧ dispatch cls rule s = raise (.unexpectedEvent s.state cls) s) ∨
      (s.state ∈ acceptedIn cls ∧ latchRequired cls = some (!s.ackEn) ∧
        dispatch cls rule s = raise (.ackMismatch s.state cls s.ackEn) s) := by
  by_cases ha : s.state ∈ acceptedIn cls
  · by_cases hl : ∀ a, latchRequired cls = some a → s.ackEn = a
    · exact .inl ⟨ha, hl, dispatch_runs ha hl⟩
    · obtain ⟨a, hr, hne⟩ : ∃ a, latchRequired cls = some a ∧ s.ackEn ≠ a := by
        simpa only [not_forall, exists_prop] using hl
      refine .inr (.inr ⟨ha, ?_, dispatch_mismatch ha hr hne⟩)
      rw [hr]
      cases a <;> cases h : s.ackEn <;> simp_all
  · exact .inr (.inl ⟨ha, dispatch_unexpected ha⟩)

/-! ## The sends (R62, R77, R78) -/

/-- Everything a master send that answers can do (R62). -/
theorem sendMaster_next {s t : State} (h : sendMaster s = .next t) :
    (∃ b, s.mbuf.cur < s.mbuf.len ∧ s.mbuf.data.read s.mbuf.cur = some b ∧
        t = State.emit .ack (some b) { s with mbuf := { s.mbuf with cur := s.mbuf.cur + 1 } }) ∨
      (¬ s.mbuf.cur < s.mbuf.len ∧ t = s.finish .stop) := by
  unfold sendMaster at h
  split at h
  · next hlt =>
    split at h
    · next b B hB =>
      rcases Buf.bufRead_cases hB with ⟨_, hb, rfl⟩ | ⟨hn, _, _⟩
      · exact .inl ⟨b, hlt, hb, by simpa using h.symm⟩
      · exact absurd hlt hn
    · cases h
  · next hlt => exact .inr ⟨hlt, by simpa using h.symm⟩

/-- Everything a slave send that answers can do (R77, R78). -/
theorem sendSlave_next {s t : State} (h : sendSlave s = .next t) :
    (∃ b, s.stbuf.cur < s.stbuf.len ∧ s.stbuf.data.read s.stbuf.cur = some b ∧
        t = State.emit (armFor (decide (s.stbuf.cur + 1 < s.stbuf.len))) (some b)
          { s with stbuf := { s.stbuf with cur := s.stbuf.cur + 1 } }) ∨
      (¬ s.stbuf.cur < s.stbuf.len ∧ t = State.emit .nack (some 0x00) s) := by
  unfold sendSlave at h
  split at h
  · next b B hB =>
    rcases Buf.bufRead_cases hB with ⟨hlt, hb, rfl⟩ | ⟨hn, rfl, rfl⟩
    · exact .inl ⟨b, hlt, hb, by simpa using h.symm⟩
    · exact .inr ⟨hn, by simpa [hn, armFor] using h.symm⟩
  · cases h

/-- A slave send that answers puts out one action and writes nothing but the cursor of its buffer. -/
theorem sendSlave_effect {s t : State} (h : sendSlave s = .next t) :
    ∃ a tx c, t = State.emit a tx { s with stbuf := { s.stbuf with cur := c } } := by
  rcases sendSlave_next h with ⟨b, _, _, rfl⟩ | ⟨_, rfl⟩
  · exact ⟨_, _, _, rfl⟩
  · exact ⟨_, _, s.stbuf.cur, rfl⟩

/-! ## Turns and steps (R9, R80, R101) -/

/-- In a state with no record, the step is the turn of the agent whose turn it is. -/
theorem step_clear {s : State} (h : s.clear) : step s = agentTurn s.drawTurn.1 s.drawTurn.2 := by
  simp [step, runStep, h.1, h.2]

/-- A step that answers was taken in a state with no record, and was an agent's turn. -/
theorem step_next {s t : State} (h : step s = .next t) :
    s.clear ∧ agentTurn s.drawTurn.1 s.drawTurn.2 = .next t := by
  unfold step runStep at h
  split at h
  · cases h
  · next hf =>
    split at h
    · cases h
    · next hr => exact ⟨⟨hf, hr⟩, h⟩

/-- Everything FG's turn can be (R80, R82). -/
theorem fgTurn_cases (s : State) :
    (s.fgPhase = .idle ∧ s.program[s.fpc]? = none ∧ fgTurn s = .next s) ∨
      (∃ c i, s.fgPhase = .idle ∧ s.program[s.fpc]? = some c ∧ decodeCommand c = .ok i ∧ fgTurn s = exec i s) ∨
      (∃ c, s.fgPhase = .idle ∧ s.program[s.fpc]? = some c ∧ fgTurn s = raise (.illegalCommand c) s) ∨
      (s.fgPhase ≠ .idle ∧ fgTurn s = complete s) := by
  unfold fgTurn
  split
  · next hp =>
    unfold issue
    split
    · next hn => exact .inl ⟨hp, hn, rfl⟩
    · next c hc =>
      split
      · next i hi => exact .inr (.inl ⟨c, i, hp, hc, hi, rfl⟩)
      · exact .inr (.inr (.inl ⟨c, hp, hc, rfl⟩))
  · next hp => exact .inr (.inr (.inr ⟨by simp [hp], rfl⟩))
  · next hp => exact .inr (.inr (.inr ⟨by simp [hp], rfl⟩))

/-- Everything PERIPH's turn can be (R58, R103). -/
theorem periphTurn_cases (s : State) :
    ((s.enabled = false ∨ s.events = []) ∧ periphTurn s = .next s) ∨
      (∃ e rest i, s.enabled = true ∧ s.events = e :: rest ∧ decodeEvent s.statusMap e = .ok i ∧
        periphTurn s = exec i { s with events := rest }) ∨
      (∃ e rest, s.enabled = true ∧ s.events = e :: rest ∧
        periphTurn s = refuse (.unknownStatus e.status) { s with events := rest }) := by
  unfold periphTurn
  split
  · next he => exact .inl ⟨.inl he, rfl⟩
  · next he =>
    have he : s.enabled = true := by simpa using he
    split
    · next hev => exact .inl ⟨.inr hev, rfl⟩
    · next e rest hev =>
      split
      · next i hi => exact .inr (.inl ⟨e, rest, i, he, hev, hi, rfl⟩)
      · exact .inr (.inr ⟨e, rest, he, hev, rfl⟩)

/-- A decoded event is the instruction of some class. -/
theorem decodeEvent_ok {rows : List StatusRow} {e : BusEvent} {i : Instr} (h : decodeEvent rows e = .ok i) :
    ∃ cls, statusClass rows e.status = some cls ∧ i = cls.instr e.data := by
  unfold decodeEvent at h
  split at h
  · next cls hc => exact ⟨cls, hc, by simpa using h.symm⟩
  · cases h

/-- A decoded command word is one of the table's commands with the operands of the word. -/
theorem decodeCommand_ok {c : CommandWord} {i : Instr} (h : decodeCommand c = .ok i) :
    ∃ r ∈ commandTable, c &&& r.mask = r.pattern ∧ i = r.op.instr c := by
  unfold decodeCommand at h
  split at h
  · next r hr =>
    exact ⟨r, List.mem_of_find?_eq_some hr, by simpa using List.find?_some hr, by simpa using h.symm⟩
  · cases h

/-! ## Placing an instruction where the next step takes it -/

/-- The word put at an index of FG's list is there. -/
theorem putCommand_get (p : List CommandWord) (n : Nat) (c : CommandWord) : (putCommand p n c)[n]? = some c := by
  induction n generalizing p with
  | zero => cases p <;> rfl
  | succ n ih => cases p <;> simpa [putCommand] using ih _

/-- The very next step runs a placed command. -/
theorem step_placed_command {s : State} {c : CommandWord} {i : Instr} (h : decodeCommand c = .ok i) :
    step (placeOnPort (.command c) s)
      = exec i { placeOnPort (.command c) s with turns := s.turns } := by
  simp [step, runStep, placeOnPort, State.drawTurn, agentTurn, fgTurn, issue, putCommand_get, h]

/-- The very next step runs a placed event. -/
theorem step_placed_event {s : State} {e : BusEvent} {i : Instr} (h : decodeEvent s.statusMap e = .ok i) :
    step (placeOnPort (.event e) s)
      = exec i { placeOnPort (.event e) s with turns := s.turns, events := s.events } := by
  simp [step, runStep, placeOnPort, State.drawTurn, agentTurn, periphTurn, h]

end Sys2Proof.Machine
end

