-- ==== Sys2Proof/Laws/Events.lean ====
section
/-! SUPPORT. Everything an event and a command can do, said once: claims about every instruction take these apart
instead of unfolding the meanings. -/

namespace Sys2Proof.Machine

/-- The rule of each class, after dispatch (R61 to R79). -/
def eventRule (cls : EventClass) (d : Byte) : State → Host.Outcome State Fault Refusal :=
  match cls with
  | .busError => fun s => .next (s.failWith .busError .stop)
  | .start => fun s => .next (s.emit .ack (some s.sla))
  | .mtSlaAck => sendMaster
  | .mtSlaNack => fun s => .next (s.failWith .addressNack .stop)
  | .mtDataAck => sendMaster
  | .mtDataNack => fun s => .next (s.failWith .dataNack .stop)
  | .arbLost => fun s => .next (s.failWith .arbitrationLost .release)
  | .mrSlaAck => fun s => .next s.armRead
  | .mrSlaNack => fun s => .next (s.failWith .addressNack .stop)
  | .mrDataAck => fun s => .next (State.armRead { s with mbuf := (s.mbuf.bufWrite d).1 })
  | .mrDataNack => fun s => .next (State.finish .stop { s with mbuf := (s.mbuf.bufWrite d).1 })
  | .srSlaAck => fun s => .next (State.emit .ack none { s with state := .sr, srbuf := s.srbuf.bufReset })
  | .srDataAck => fun s => .next (State.armSlave { s with srbuf := (s.srbuf.bufWrite d).1 })
  | .srDataNack => fun s => .next (s.emit .nack none)
  | .srStop => fun s =>
    match s.srbuf.held with
    | some bytes => .next ((s.notify bytes).finish .release)
    | none => .fault (.unsetByte .slaveRx)
  | .stSlaAck => fun s => startSlaveTransmit s.drawReply.1 s.drawReply.2
  | .stDataAck => sendSlave
  | .stDataNack => fun s => .next (s.finish .release)
  | .stLastData => fun s => .next (s.finish .release)

/-- Every event is its rule behind the one dispatch (R58). -/
theorem exec_event (cls : EventClass) (d : Byte) (s : State) :
    exec (cls.instr d) s = dispatch cls (eventRule cls d) s := by
  cases cls <;> rfl

/-- What an event of class `cls` with byte `d`, accepted in `s`, can leave. -/
inductive EventEffect (cls : EventClass) (d : Byte) (s : State) : State → Prop where
  | failed (e : TxnError) (a : BusAct) (he : e ≠ .lengthTooLong) : EventEffect cls d s (s.failWith e a)
  | finished (a : BusAct) : EventEffect cls d s (s.finish a)
  | emitted (a : BusAct) (tx : Option Byte) : EventEffect cls d s (s.emit a tx)
  | sent (b : Byte) (hs : s.state = .mt) (hlt : s.mbuf.cur < s.mbuf.len)
      (hb : s.mbuf.data.read s.mbuf.cur = some b) :
      EventEffect cls d s (State.emit .ack (some b) { s with mbuf := { s.mbuf with cur := s.mbuf.cur + 1 } })
  | stored (hc : cls = .mrDataAck) (hs : s.state = .mr) :
      EventEffect cls d s (State.armRead { s with mbuf := (s.mbuf.bufWrite d).1 })
  | storedLast (hc : cls = .mrDataNack) (hs : s.state = .mr) :
      EventEffect cls d s (State.finish .stop { s with mbuf := (s.mbuf.bufWrite d).1 })
  | addressed (hc : cls = .srSlaAck) (hs : s.state = .ready) :
      EventEffect cls d s (State.emit .ack none { s with state := .sr, srbuf := s.srbuf.bufReset })
  | received (hc : cls = .srDataAck) (hs : s.state = .sr) :
      EventEffect cls d s (State.armSlave { s with srbuf := (s.srbuf.bufWrite d).1 })
  | notified (bytes : List Byte) (hc : cls = .srStop) (hs : s.state = .sr) (hb : s.srbuf.held = some bytes) :
      EventEffect cls d s ((s.notify bytes).finish .release)
  | answered (t : State) (hc : cls = .stSlaAck) (hs : s.state = .ready)
      (ht : sendSlave { s.drawReply.2 with state := .st, stbuf := s.stbuf.bufReset.fill s.drawReply.1 } = .next t) :
      EventEffect cls d s t
  | sentSlave (t : State) (hc : cls = .stDataAck) (hs : s.state = .st) (ht : sendSlave s = .next t) :
      EventEffect cls d s t

theorem EventEffect.of_sendMaster {cls : EventClass} {d : Byte} {s t : State} (hs : s.state = .mt)
    (h : sendMaster s = .next t) : EventEffect cls d s t := by
  rcases sendMaster_next h with ⟨b, hlt, hb, rfl⟩ | ⟨_, rfl⟩
  · exact .sent b hs hlt hb
  · exact .finished _

theorem EventEffect.of_srStop {d : Byte} {s t : State} (hs : s.state = .sr)
    (h : (match s.srbuf.held with
      | some bytes => .next ((s.notify bytes).finish .release)
      | none => .fault (.unsetByte .slaveRx) : Host.Outcome State Fault Refusal) = .next t) :
    EventEffect .srStop d s t := by
  split at h
  · next bytes hb => cases h; exact .notified bytes rfl hs hb
  · cases h

/-- Everything an event can do: it raises a fault, or it is accepted with an agreeing latch and has its effect. -/
theorem event_cases {cls : EventClass} {d : Byte} {s t : State} (h : exec (cls.instr d) s = .next t) :
    (∃ r, t = { s with fault := some r }) ∨
      (s.state ∈ acceptedIn cls ∧ (∀ a, latchRequired cls = some a → s.ackEn = a) ∧ EventEffect cls d s t) := by
  rw [exec_event] at h
  rcases dispatch_cases cls (eventRule cls d) s with ⟨ha, hl, he⟩ | ⟨_, he⟩ | ⟨_, _, he⟩ <;> rw [he] at h
  rotate_left
  · exact .inl ⟨_, raise_next.mp h⟩
  · exact .inl ⟨_, raise_next.mp h⟩
  refine .inr ⟨ha, hl, ?_⟩
  cases cls <;> simp only [eventRule] at h
  case mtSlaAck => exact .of_sendMaster (by simpa [acceptedIn] using ha) h
  case mtDataAck => exact .of_sendMaster (by simpa [acceptedIn] using ha) h
  case srStop => exact .of_srStop (by simpa [acceptedIn] using ha) h
  case stSlaAck =>
    refine .answered t rfl (by simpa [acceptedIn] using ha) ?_
    rw [← State.drawReply_stbuf s]; exact h
  case stDataAck => exact .sentSlave t rfl (by simpa [acceptedIn] using ha) h
  case busError => cases h; exact .failed _ _ (by decide)
  case mtSlaNack => cases h; exact .failed _ _ (by decide)
  case mtDataNack => cases h; exact .failed _ _ (by decide)
  case arbLost => cases h; exact .failed _ _ (by decide)
  case mrSlaNack => cases h; exact .failed _ _ (by decide)
  case start => cases h; exact .emitted _ _
  case mrSlaAck => cases h; exact .emitted _ _
  case srDataNack => cases h; exact .emitted _ _
  case mrDataAck => cases h; exact .stored rfl (by simpa [acceptedIn] using ha)
  case mrDataNack => cases h; exact .storedLast rfl (by simpa [acceptedIn] using ha)
  case srSlaAck => cases h; exact .addressed rfl (by simpa [acceptedIn] using ha)
  case srDataAck => cases h; exact .received rfl (by simpa [acceptedIn] using ha)
  case stDataNack => cases h; exact .finished _
  case stLastData => cases h; exact .finished _

/-- What a command taken in `s` can leave. -/
inductive CommandEffect (s : State) : State → Prop where
  | faulted (r : FaultRecord) : CommandEffect s { s with fault := some r }
  | held (hs : s.state ≠ .ready) : CommandEffect s s
  | booted (hs : s.state = .ready) :
      CommandEffect s (State.respond 0x00
        { s with state := .ready, enabled := true, ackEn := true
                 divisor := Config.divisorFn Config.fCpu Config.fScl })
  | opened (addr : BusAddr) (hs : s.state = .ready) :
      CommandEffect s (State.respond 0x00 { s with tgt := addr, wrOpen := true, mbuf := s.mbuf.bufReset })
  | queued (b : Byte) (hw : s.wrOpen = true) :
      CommandEffect s (State.respond (fullByte (s.mbuf.bufWrite b).2) { s with mbuf := (s.mbuf.bufWrite b).1 })
  | writeWaiting (hw : s.wrOpen = true) (he : s.enabled = true) (hs : s.state = .ready) :
      CommandEffect s { s.startWrite with fgPhase := .waitWrite }
  | writeStarted (hw : s.wrOpen = true) (he : s.enabled = true) (hs : s.state = .ready) :
      CommandEffect s (State.respond s.startWrite.drawByte.1 s.startWrite.drawByte.2)
  | readNothing (hw : s.wrOpen = false) (hs : s.state = .ready) :
      CommandEffect s (State.respond 0x00 { s with mbuf := s.mbuf.bufReset })
  | readWaiting (addr : BusAddr) (k : Nat) (hw : s.wrOpen = false) (he : s.enabled = true) (hs : s.state = .ready)
      (hk : 0 < k) (hcap : k ≤ s.mbuf.cap) :
      CommandEffect s (State.startRead addr k { s with mbuf := s.mbuf.bufReset })
  | counted (hm : s.state ≠ .mt ∧ s.state ≠ .mr) :
      CommandEffect s (State.respond (countByte s.mbuf.bufAvail) s)
  | drained (v : Byte) (B : Buf) (hm : s.state ≠ .mt ∧ s.state ≠ .mr) (hB : s.mbuf.bufRead = some (v, B)) :
      CommandEffect s (State.respond v { s with mbuf := B })

/-- Everything a command can do. -/
theorem command_cases {i : Instr} {s t : State} (hi : isCommand i = true) (h : exec i s = .next t) :
    CommandEffect s t := by
  cases i
  case startBus =>
    simp only [exec, execStartBus] at h
    split at h
    · rw [raise_next.mp h]; exact .faulted _
    · next hs => cases h; exact .booted (by simpa using hs)
  case beginWrite addr =>
    simp only [exec, execBeginWrite] at h
    split at h
    · next hs => rw [hold_next.mp h]; exact .held hs
    · next hs => cases h; exact .opened addr (by simpa using hs)
  case queueByte b =>
    simp only [exec, execQueueByte] at h
    split at h
    · rw [raise_next.mp h]; exact .faulted _
    · next hw => cases h; exact .queued b (by simpa using hw)
  case endWrite wait =>
    simp only [exec, execEndWrite] at h
    split at h
    · rw [raise_next.mp h]; exact .faulted _
    next hw =>
    split at h
    · rw [raise_next.mp h]; exact .faulted _
    next he =>
    split at h
    · next hs => rw [hold_next.mp h]; exact .held hs
    next hs =>
    split at h
    · cases h; exact .writeWaiting (by simpa using hw) (by simpa using he) (by simpa using hs)
    · cases h; exact .writeStarted (by simpa using hw) (by simpa using he) (by simpa using hs)
  case requestRead addr n =>
    simp only [exec, execRequestRead] at h
    split at h
    · rw [raise_next.mp h]; exact .faulted _
    next hw =>
    split at h
    · rw [raise_next.mp h]; exact .faulted _
    next he =>
    split at h
    · next hs => rw [hold_next.mp h]; exact .held hs
    next hs =>
    split at h
    · cases h; exact .readNothing (by simpa using hw) (by simpa using hs)
    · next hk =>
      cases h
      have hk : 0 < clampCount n s.mbuf.cap := Nat.pos_of_ne_zero hk
      have he : s.enabled = true := by simpa [hk] using he
      exact .readWaiting addr _ (by simpa using hw) he (by simpa using hs) hk (Nat.min_le_right _ _)
  case available =>
    simp only [exec, execAvailable] at h
    split at h
    · rw [raise_next.mp h]; exact .faulted _
    · next hm => cases h; exact .counted (by simpa using hm)
  case nextByte =>
    simp only [exec, execNextByte] at h
    split at h
    · rw [raise_next.mp h]; exact .faulted _
    next hm =>
    split at h
    · next v B hB => cases h; exact .drained v B (by simpa using hm) hB
    · cases h
  all_goals simp [isCommand, encode] at hi

/-- Every instruction that is no command is the event of some class. -/
theorem event_of_not_command {i : Instr} (hi : isCommand i = false) : ∃ cls d, i = EventClass.instr d cls := by
  cases i
  case busError => exact ⟨.busError, 0, rfl⟩
  case start => exact ⟨.start, 0, rfl⟩
  case mtSlaAck => exact ⟨.mtSlaAck, 0, rfl⟩
  case mtSlaNack => exact ⟨.mtSlaNack, 0, rfl⟩
  case mtDataAck => exact ⟨.mtDataAck, 0, rfl⟩
  case mtDataNack => exact ⟨.mtDataNack, 0, rfl⟩
  case arbLost => exact ⟨.arbLost, 0, rfl⟩
  case mrSlaAck => exact ⟨.mrSlaAck, 0, rfl⟩
  case mrSlaNack => exact ⟨.mrSlaNack, 0, rfl⟩
  case mrDataAck d => exact ⟨.mrDataAck, d, rfl⟩
  case mrDataNack d => exact ⟨.mrDataNack, d, rfl⟩
  case srSlaAck => exact ⟨.srSlaAck, 0, rfl⟩
  case srDataAck d => exact ⟨.srDataAck, d, rfl⟩
  case srDataNack d => exact ⟨.srDataNack, d, rfl⟩
  case srStop => exact ⟨.srStop, 0, rfl⟩
  case stSlaAck => exact ⟨.stSlaAck, 0, rfl⟩
  case stDataAck => exact ⟨.stDataAck, 0, rfl⟩
  case stDataNack => exact ⟨.stDataNack, 0, rfl⟩
  case stLastData => exact ⟨.stLastData, 0, rfl⟩
  all_goals simp [isCommand, encode] at hi

/-- A command word decodes to a command. -/
theorem decodeCommand_isCommand {c : CommandWord} {i : Instr} (h : decodeCommand c = .ok i) : isCommand i = true := by
  obtain ⟨r, _, _, rfl⟩ := decodeCommand_ok h
  cases r.op <;> rfl

end Sys2Proof.Machine
end

