-- ==== Sys2Proof/Laws/PerInstr.lean ====
section
/-! SUPPORT. Statements made of every instruction. `EncodeLegal`: what the encoder puts on a port is legal there, by the
field check of R39 for a command and by the default status map of R44 for an event. -/

namespace Sys2Proof.Laws.EncodeLegal

/-- The encoding of the instruction is a legal command word, or an event of a class the default status map has. -/
def Statement (i : Instr) : Prop :=
  match encode i with
  | .command c => commandWf c = true
  | .event e => (statusClass defaultStatusMap e.status).isSome = true

/-- A packed word is legal by its fields. -/
theorem packed (op : BitVec 4) (addr : BusAddr) (imm : Byte) (hop : 1 ≤ op.toNat ∧ op.toNat ≤ 7)
    (ha : addr = 0 ∨ op.toNat = 2 ∨ op.toNat = 5) (hi : imm = 0 ∨ op.toNat = 3 ∨ op.toNat = 5) :
    commandWf (packCommand op false addr imm) = true := by
  unfold commandWf
  rw [wordField_pack_op, wordField_pack_rsv, wordField_pack_wait, wordField_pack_addr, wordField_pack_imm]
  rcases ha with rfl | ha <;> rcases hi with rfl | hi <;> simp [hop] <;> omega

/-- The code of every class is one the default map gives a class. -/
theorem event (cls : EventClass) : (statusClass defaultStatusMap cls.code).isSome = true := by
  cases cls <;> decide

theorem startBus : Statement .startBus := packed 1 0 0 (by decide) (by simp) (by simp)

theorem beginWrite (addr : BusAddr) : Statement (.beginWrite addr) := packed 2 addr 0 (by decide) (by simp) (by simp)

theorem queueByte (b : Byte) : Statement (.queueByte b) := packed 3 0 b (by decide) (by simp) (by simp)

theorem endWrite (wait : Bool) : Statement (.endWrite wait) := by
  cases wait
  · exact packed 4 0 0 (by decide) (by simp) (by simp)
  · exact (by decide : commandWf (endWriteWord true) = true)

theorem requestRead (addr : BusAddr) (n : Byte) : Statement (.requestRead addr n) := packed 5 addr n (by decide) (by simp) (by simp)

theorem available : Statement .available := packed 6 0 0 (by decide) (by simp) (by simp)

theorem nextByte : Statement .nextByte := packed 7 0 0 (by decide) (by simp) (by simp)

theorem busError : Statement .busError := event .busError

theorem start : Statement .start := event .start

theorem mtSlaAck : Statement .mtSlaAck := event .mtSlaAck

theorem mtSlaNack : Statement .mtSlaNack := event .mtSlaNack

theorem mtDataAck : Statement .mtDataAck := event .mtDataAck

theorem mtDataNack : Statement .mtDataNack := event .mtDataNack

theorem arbLost : Statement .arbLost := event .arbLost

theorem mrSlaAck : Statement .mrSlaAck := event .mrSlaAck

theorem mrSlaNack : Statement .mrSlaNack := event .mrSlaNack

theorem mrDataAck (d : Byte) : Statement (.mrDataAck d) := event .mrDataAck

theorem mrDataNack (d : Byte) : Statement (.mrDataNack d) := event .mrDataNack

theorem srSlaAck : Statement .srSlaAck := event .srSlaAck

theorem srDataAck (d : Byte) : Statement (.srDataAck d) := event .srDataAck

theorem srDataNack (d : Byte) : Statement (.srDataNack d) := event .srDataNack

theorem srStop : Statement .srStop := event .srStop

theorem stSlaAck : Statement .stSlaAck := event .stSlaAck

theorem stDataAck : Statement .stDataAck := event .stDataAck

theorem stDataNack : Statement .stDataNack := event .stDataNack

theorem stLastData : Statement .stLastData := event .stLastData

end Sys2Proof.Laws.EncodeLegal
end

