-- ==== Sys2Proof/Tests/Slice0.lean ====
section
/-! SUPPORT. Tests of the model. Every expected value is from spec/95_test_vectors.md (named L1.x, L2.x) or from the
words of the rule named; each test is one decoding or one step. -/

namespace Sys2Proof.Tests

open Sys2Proof.Machine

/-- What holds after an outcome that is a next state. -/
def after (o : Host.Outcome State Fault Refusal) (p : State → Bool) : Bool :=
  match o with
  | .next t => p t
  | .fault _ => false
  | .refused _ => false

/-- The "booted" state of 95_test_vectors.md §0. -/
def booted : State := { State.reset with enabled := true, ackEn := true }

/-- A buffer that holds the bytes given, with a cursor. -/
def holding (bytes : List Byte) (cur : Nat) : Buf := { (Buf.empty 32).fill bytes with cur := cur }

/-! ## Well-formedness: an ill-formed term for each check (R37 to R39, R51; L2.1) -/

theorem test_wf_opcode_zero : commandWf 0x000000 = false := by decide
theorem test_wf_opcode_high : commandWf 0x800000 = false := by decide
theorem test_wf_reserved : commandWf 0x208000 = false := by decide
theorem test_wf_wait : commandWf 0x580000 = false := by decide
theorem test_wf_addr : commandWf 0x300100 = false := by decide
theorem test_wf_imm : commandWf 0x206801 = false := by decide
theorem test_wf_legal : commandWf 0x507FFF = true := by decide
theorem test_wf_asm_addr : (AsmLine.beginWrite 0x80).wf = false := by decide
theorem test_wf_asm_byte : (AsmLine.queueByte 0x100).wf = false := by decide
theorem test_wf_asm_read_addr : (AsmLine.requestRead 0x80 1).wf = false := by decide
theorem test_wf_asm_read_count : (AsmLine.requestRead 0x7F 0x100).wf = false := by decide
theorem test_wf_asm_bytes : (AsmLine.queueBytes [1, 0x100]).wf = false := by decide
theorem test_wf_asm_write_reg : (AsmLine.writeRegister 0x100 0).wf = false := by decide
theorem test_wf_asm_write_value : (AsmLine.writeRegister 0 0x100).wf = false := by decide
theorem test_wf_asm_read_reg : (AsmLine.readRegister 0x100).wf = false := by decide
theorem test_wf_map_overlap : statusMapWf [⟨0xF8, 0x08, .start⟩, ⟨0xFF, 0x0B, .arbLost⟩] = false := by decide
theorem test_wf_map_default : statusMapWf defaultStatusMap = true := by decide

/-! ## Decoding: every constructor from a word of R38, R44, L1.8, L2.1, L2.2 -/

theorem test_decode_startBus : decodeTableWord 24 0x100000 = some .startBus := by decide
theorem test_decode_beginWrite : decodeTableWord 24 0x206800 = some (.beginWrite 0x68) := by decide
theorem test_decode_queueByte : decodeTableWord 24 0x300080 = some (.queueByte 0x80) := by decide
theorem test_decode_endWrite : decodeTableWord 24 0x480000 = some (.endWrite true) := by decide
theorem test_decode_endWrite_nowait : decodeTableWord 24 0x400000 = some (.endWrite false) := by decide
theorem test_decode_requestRead : decodeTableWord 24 0x503C04 = some (.requestRead 0x3C 4) := by decide
theorem test_decode_available : decodeTableWord 24 0x600000 = some .available := by decide
theorem test_decode_nextByte : decodeTableWord 24 0x700000 = some .nextByte := by decide
theorem test_decode_busError : decodeTableWord 8 0x00 = some .busError := by decide
theorem test_decode_start : decodeTableWord 8 0x0B = some .start := by decide
theorem test_decode_mtSlaAck : decodeTableWord 8 0x18 = some .mtSlaAck := by decide
theorem test_decode_mtSlaNack : decodeTableWord 8 0x20 = some .mtSlaNack := by decide
theorem test_decode_mtDataAck : decodeTableWord 8 0x28 = some .mtDataAck := by decide
theorem test_decode_mtDataNack : decodeTableWord 8 0x30 = some .mtDataNack := by decide
theorem test_decode_arbLost : decodeTableWord 8 0x38 = some .arbLost := by decide
theorem test_decode_mrSlaAck : decodeTableWord 8 0x40 = some .mrSlaAck := by decide
theorem test_decode_mrSlaNack : decodeTableWord 8 0x48 = some .mrSlaNack := by decide
theorem test_decode_mrDataAck : decodeTableWord 16 0x1257 = some (.mrDataAck 0x12) := by decide
theorem test_decode_mrDataNack : decodeTableWord 16 0x5658 = some (.mrDataNack 0x56) := by decide
theorem test_decode_srSlaAck : decodeTableWord 8 0x60 = some .srSlaAck := by decide
theorem test_decode_srDataAck : decodeTableWord 16 0x5580 = some (.srDataAck 0x55) := by decide
theorem test_decode_srDataNack : decodeTableWord 16 0x7788 = some (.srDataNack 0x77) := by decide
theorem test_decode_srStop : decodeTableWord 8 0xA0 = some .srStop := by decide
theorem test_decode_stSlaAck : decodeTableWord 8 0xA8 = some .stSlaAck := by decide
theorem test_decode_stDataAck : decodeTableWord 8 0xB8 = some .stDataAck := by decide
theorem test_decode_stDataNack : decodeTableWord 8 0xC0 = some .stDataNack := by decide
theorem test_decode_stLastData : decodeTableWord 8 0xC8 = some .stLastData := by decide
theorem test_decode_illegal_imm : decodeTableWord 24 0x100001 = none := by decide
theorem test_decode_illegal_rsv : decodeTableWord 24 0x440000 = none := by decide
theorem test_decode_unmapped_repeated_start : decodeTableWord 8 0x10 = none := by decide
theorem test_decode_unmapped_general_call : decodeTableWord 8 0x70 = none := by decide

/-! ## The assembler and the adapter (R51, R94 to R96; L1.8) -/

theorem test_asm_requestRead :
    assemble 0x68 ("REQUEST_READ 0x68, 3 ; three bytes").toList = some [0x506803] := by decide
theorem test_asm_range : assemble 0x68 ("BEGIN_WRITE 128").toList = none := by decide
theorem test_asm_writeRegister :
    assemble 0x68 ("WRITE_REGISTER 0x00, 0x80").toList = some [0x206800, 0x300000, 0x300080, 0x480000] := by decide
theorem test_asm_readRegister :
    commandWords (readRegister 0x68 0x00) = [0x206800, 0x300000, 0x480000, 0x506801, 0x700000] := by decide

/-! ## One step of each instruction (L2.4 to L2.10) -/

/-- L2.10, R84: reset, `START_BUS`. -/
theorem test_startBus_boots :
    after (step (State.reset.withFetchWord 24 0x100000)) (fun t =>
      t.enabled && t.ackEn && t.stat == 0x80 && t.responses == [0x00] && t.buslog == []) = true := by decide

/-- L2.10: `START_BUS` in MT. -/
theorem test_startBus_busy :
    after (exec .startBus { booted with state := .mt }) (fun t =>
      t.fault == some (.restartWhileBusy .mt) && t.fpc == 0 && t.responses == []) = true := by decide

/-- L2.10: a restart discards the queued bytes and replaces the address. -/
theorem test_beginWrite_restarts :
    after (exec (.beginWrite 0x20) { booted with wrOpen := true, tgt := 0x10, mbuf := holding [1, 2] 0 }) (fun t =>
      t.tgt == 0x20 && t.mbuf.len == 0 && t.mbuf.cur == 0 && t.responses == [0x00]) = true := by decide

/-- L2.10: `BEGIN_WRITE` in MT is held, `fpc` unchanged (R14). -/
theorem test_beginWrite_held :
    after (exec (.beginWrite 0x68) { booted with state := .mt }) (fun t =>
      t == { booted with state := .mt }) = true := by decide

/-- R86: `QUEUE_BYTE 0x80` onto [0x00]. -/
theorem test_queueByte_appends :
    after (exec (.queueByte 0x80) { booted with wrOpen := true, mbuf := holding [0x00] 0 }) (fun t =>
      t.mbuf.held == some [0x00, 0x80] && t.mbuf.cur == 0 && t.responses == [0x00]) = true := by decide

/-- L2.10: outside a write, with the word as info. -/
theorem test_queueByte_outside :
    after (exec (.queueByte 0x01) State.reset) (fun t =>
      t.fault == some (.queueOutsideWrite 0x300001) && t.responses == []) = true := by decide

/-- R87's example: `tgt` 0x68, two bytes, `END_WRITE WAIT`. -/
theorem test_endWrite_starts :
    after (exec (.endWrite true) { booted with wrOpen := true, tgt := 0x68, mbuf := holding [0x00, 0x80] 1 })
      (fun t => t.sla == 0xD0 && t.state == .mt && t.buslog == [(.start, none)] && t.fgPhase == .waitWrite
        && t.mbuf.cur == 0 && !t.wrOpen && t.responses == [] && t.fpc == 0) = true := by decide

/-- L2.10: the write is open but the bus was never started. -/
theorem test_endWrite_notStarted :
    after (exec (.endWrite true) { State.reset with wrOpen := true }) (fun t =>
      t.fault == some (.notStarted 0x480000) && t.wrOpen) = true := by decide

/-- L1.5: 40 bytes are clamped to 32. -/
theorem test_requestRead_clamps :
    after (step (booted.withFetchWord 24 0x506828)) (fun t =>
      t.mrWant == 32 && t.state == .mr && t.sla == 0xD1 && t.fgPhase == .waitRead
        && t.buslog == [(.start, none)]) = true := by decide

/-- L1.5, P4: a count of 0 before `START_BUS`: response 0x00, no bus action, `err` unchanged. -/
theorem test_requestRead_zero :
    after (exec (.requestRead 0x68 0) { State.reset with err := .busError, mbuf := holding [0x12] 0 }) (fun t =>
      t.responses == [0x00] && t.buslog == [] && t.err == .busError && t.mbuf.len == 0 && t.state == .ready)
      = true := by decide

/-- L2.10: `AVAILABLE` in SR is allowed. -/
theorem test_available_in_sr :
    after (exec .available { booted with state := .sr, mbuf := holding [1, 2, 3] 1 }) (fun t =>
      t.responses == [0x02] && t.mbuf.cur == 1) = true := by decide

/-- L2.10: `AVAILABLE` in MT. -/
theorem test_available_race :
    after (exec .available { booted with state := .mt }) (fun t =>
      t.fault == some (.masterBufferRace 0x600000)) = true := by decide

/-- R90's example. -/
theorem test_nextByte_drains :
    after (exec .nextByte { booted with mbuf := holding [0x12, 0x34, 0x56] 2 }) (fun t =>
      t.responses == [0x56] && t.mbuf.cur == 3) = true := by decide

/-- L1.2: the sentinel past the end. -/
theorem test_nextByte_sentinel :
    after (exec .nextByte { booted with mbuf := holding [0x12] 1 }) (fun t =>
      t.responses == [0x00] && t.mbuf.cur == 1) = true := by decide

/-- L2.7: in SR, no notification, `srbuf` kept. -/
theorem test_busError_in_sr :
    after (exec .busError { booted with state := .sr, srbuf := holding [0x01] 0 }) (fun t =>
      t.buslog == [(.stop, none)] && t.err == .busError && t.state == .ready && t.notifylog == []
        && t.srbuf.len == 1) = true := by decide

/-- L2.4: `START` in MT sends `sla`. -/
theorem test_start_sends_sla :
    after (exec .start { booted with state := .mt, sla := 0xD0 }) (fun t =>
      t.buslog == [(.ack, some 0xD0)] && t.ackEn && t.state == .mt) = true := by decide

/-- L2.4: `START` in READY. -/
theorem test_start_unexpected :
    after (step (State.reset.withFetchWord 8 0x08)) (fun t =>
      t.fault == some (.unexpectedEvent .ready .start) && t.buslog == []) = true := by decide

/-- L2.5: nothing queued, an address-only write. -/
theorem test_mtSlaAck_empty :
    after (exec .mtSlaAck { booted with state := .mt }) (fun t =>
      t.buslog == [(.stop, none)] && t.state == .ready && t.err == .none) = true := by decide

/-- L2.5: the second of two bytes. -/
theorem test_mtDataAck_next :
    after (exec .mtDataAck { booted with state := .mt, mbuf := holding [0x00, 0x80] 1 }) (fun t =>
      t.buslog == [(.ack, some 0x80)] && t.mbuf.cur == 2 && t.state == .mt) = true := by decide

/-- L2.5. -/
theorem test_mtSlaNack :
    after (exec .mtSlaNack { booted with state := .mt }) (fun t =>
      t.buslog == [(.stop, none)] && t.err == .addressNack && t.stat == 0x90) = true := by decide

/-- L2.5: the last byte rejected. -/
theorem test_mtDataNack :
    after (exec .mtDataNack { booted with state := .mt, mbuf := holding [1, 2] 2 }) (fun t =>
      t.buslog == [(.stop, none)] && t.err == .dataNack && t.mbuf.cur == 2 && t.stat == 0xA0) = true := by decide

/-- L2.6: arbitration loss in MR keeps the captured bytes. -/
theorem test_arbLost_in_mr :
    after (exec .arbLost { booted with state := .mr, mrWant := 4, mbuf := holding [0xAA, 0xBB] 0 }) (fun t =>
      t.buslog == [(.release, none)] && t.err == .arbitrationLost && t.mbuf.len == 2 && t.stat == 0xB0)
      = true := by decide

/-- L2.6: one byte expected arms NACK. -/
theorem test_mrSlaAck_one :
    after (exec .mrSlaAck { booted with state := .mr, mrWant := 1 }) (fun t =>
      t.buslog == [(.nack, none)] && !t.ackEn) = true := by decide

/-- L2.6: two bytes expected arm ACK. -/
theorem test_mrSlaAck_two :
    after (exec .mrSlaAck { booted with state := .mr, mrWant := 2 }) (fun t =>
      t.buslog == [(.ack, none)] && t.ackEn) = true := by decide

/-- L2.6. -/
theorem test_mrSlaNack :
    after (exec .mrSlaNack { booted with state := .mr }) (fun t =>
      t.buslog == [(.stop, none)] && t.err == .addressNack && t.mbuf.len == 0) = true := by decide

/-- L2.6: the byte before the last arms NACK. -/
theorem test_mrDataAck_arms_nack :
    after (exec (.mrDataAck 0x9C) { booted with state := .mr, mrWant := 2 }) (fun t =>
      t.buslog == [(.nack, none)] && t.mbuf.held == some [0x9C] && t.state == .mr) = true := by decide

/-- L2.4: the acknowledge reported disagrees with the latch. -/
theorem test_mrDataAck_mismatch :
    after (exec (.mrDataAck 0x01) { booted with state := .mr, ackEn := false }) (fun t =>
      t.fault == some (.ackMismatch .mr .mrDataAck false) && t.mbuf.len == 0) = true := by decide

/-- L2.6: the last byte. -/
theorem test_mrDataNack_last :
    after (exec (.mrDataNack 0x9D) { booted with state := .mr, mrWant := 2, ackEn := false, mbuf := holding [0x9C] 0 })
      (fun t => t.buslog == [(.stop, none)] && t.mbuf.held == some [0x9C, 0x9D] && t.state == .ready) = true := by
  decide

/-- L2.8: a slave receive discards the old bytes. -/
theorem test_srSlaAck :
    after (exec .srSlaAck { booted with srbuf := holding [0x01] 0 }) (fun t =>
      t.buslog == [(.ack, none)] && t.state == .sr && t.srbuf.len == 0) = true := by decide

/-- L2.8 with `CAP_SR` = 2: the byte that fills the buffer is stored and arms NACK. -/
theorem test_srDataAck_fills :
    after (exec (.srDataAck 0x02) { booted with state := .sr, srbuf := (Buf.empty 2).fill [0x01] }) (fun t =>
      t.buslog == [(.nack, none)] && t.srbuf.held == some [0x01, 0x02] && !t.ackEn) = true := by decide

/-- L2.8: a byte after the buffer filled is discarded. -/
theorem test_srDataNack_discards :
    after (exec (.srDataNack 0x03) { booted with state := .sr, ackEn := false, srbuf := (Buf.empty 2).fill [1, 2] })
      (fun t => t.buslog == [(.nack, none)] && t.srbuf.held == some [1, 2] && t.state == .sr) = true := by decide

/-- L2.8, R76: the notification comes before the release. -/
theorem test_srStop :
    after (exec .srStop { booted with state := .sr, srbuf := holding [1, 2] 0 }) (fun t =>
      t.outlog == [.notify [1, 2], .bus .release none] && t.state == .ready) = true := by decide

/-- L2.9: three bytes from the data source. -/
theorem test_stSlaAck_first :
    after (exec .stSlaAck { booted with txReplies := [[0xA1, 0xB2, 0xC3]] }) (fun t =>
      t.buslog == [(.ack, some 0xA1)] && t.stbuf.cur == 1 && t.state == .st) = true := by decide

/-- L2.9: an empty answer sends the sentinel as the last byte. -/
theorem test_stSlaAck_empty :
    after (exec .stSlaAck { booted with txReplies := [[]] }) (fun t =>
      t.buslog == [(.nack, some 0x00)] && t.stbuf.cur == 0 && !t.ackEn) = true := by decide

/-- R78's example. -/
theorem test_stDataAck_last :
    after (exec .stDataAck { booted with state := .st, stbuf := holding [0xA1, 0xB2] 1 }) (fun t =>
      t.buslog == [(.nack, some 0xB2)] && t.stbuf.cur == 2) = true := by decide

/-- L2.9: the master stopped early. -/
theorem test_stDataNack :
    after (exec .stDataNack { booted with state := .st, stbuf := holding [0xA1, 0xB2] 1 }) (fun t =>
      t.buslog == [(.release, none)] && t.state == .ready && t.stbuf.cur == 1) = true := by decide

/-- L2.9: `ST_LAST_DATA` while more bytes follow. -/
theorem test_stLastData_mismatch :
    after (exec .stLastData { booted with state := .st, stbuf := holding [0xA1, 0xB2] 1 }) (fun t =>
      t.fault == some (.ackMismatch .st .stLastData true)) = true := by decide

/-- L2.9: the last byte was sent. -/
theorem test_stLastData :
    after (exec .stLastData { booted with state := .st, ackEn := false }) (fun t =>
      t.buslog == [(.release, none)] && t.state == .ready) = true := by decide

/-! ## The steps around an instruction -/

/-- A byte below `len` that nothing has written is no answer (log 6); no reachable step reads one (R113). -/
theorem test_unset_byte : ({ Buf.empty 32 with len := 1 } : Buf).bufRead = none := by decide

/-- L2.7, R120: a completion after a stray bus error answers 0x04 (R82). -/
theorem test_complete_write :
    after (step { booted with err := .busError, fgPhase := .waitWrite, program := [0x480000], turns := [.fg] })
      (fun t => t.responses == [0x04] && t.fgPhase == .idle && t.fpc == 1) = true := by decide

/-- L2.6: a read that lost the bus after two bytes completes with 2. -/
theorem test_complete_read :
    after (step { booted with fgPhase := .waitRead, mbuf := holding [0xAA, 0xBB] 0, turns := [.fg] })
      (fun t => t.responses == [0x02] && t.fgPhase == .idle) = true := by decide

/-- L2.10: the word 0 is no command. -/
theorem test_illegal_command :
    after (step (booted.withFetchWord 24 0x000000)) (fun t =>
      t.fault == some (.illegalCommand 0x000000)) = true := by decide

/-- L2.4: 0x10 has no class, whatever the state. -/
theorem test_unknown_status :
    after (step (booted.withFetchWord 8 0x10)) (fun t =>
      t.refused == some (.unknownStatus 0x10) && t.fault == none) = true := by decide

/-- L2.4: before `START_BUS` PERIPH cannot deliver. -/
theorem test_not_enabled :
    after (step { State.reset with events := [⟨0x00, 0⟩], turns := [.periph] }) (fun t =>
      t.buslog == [] && t.events == [⟨0x00, 0⟩]) = true := by decide

/-- L2.4: after a fault no step is enabled. -/
theorem test_stopped :
    (match step { booted with fault := some (.illegalCommand 0), program := [0x100000], turns := [.fg] } with
      | .next _ => none
      | .fault r => some r
      | .refused _ => none) = some (Fault.stopped (.illegalCommand 0)) := by decide

/-! ## Witnesses: for each statement with hypotheses, concrete states and operands that meet them, clause by clause -/

/-- A fresh buffer is as R20 keeps it. -/
theorem witness_bufOk : (Buf.empty 32).Ok := by
  constructor <;> decide

/-- A read of one byte, straight after `START` (log 13). -/
def reading : State := { booted with state := .mr, sla := 0xD1, mrWant := 1, fgPhase := .idle }

/-- The booted state with FG's next command `AVAILABLE` and an event pending meets the invariant. -/
def atWork : State :=
  { booted with program := [0x600000], events := [⟨0x60, 0⟩], turns := [.fg, .periph] }

theorem witness_StepKeepsInvariant : atWork.Inv ∧ ∃ t, step atWork = .next t := by
  refine ⟨?_, _, rfl⟩
  constructor <;> first | exact witness_bufOk | decide

theorem witness_StepAnswersUnderInvariant : atWork.Inv ∧ atWork.clear :=
  ⟨witness_StepKeepsInvariant.1, by decide, by decide⟩

theorem witness_RecordStopsEveryStep :
    { booted with fault := some (.illegalCommand 0) }.fault = some (.illegalCommand 0) ∧
      { booted with refused := some (.unknownStatus 0x10) }.fault = none ∧
      { booted with refused := some (.unknownStatus 0x10) }.refused = some (.unknownStatus 0x10) := by decide

theorem witness_EncodeOfDecodedCommandIsWord : decodeCommand 0x507FFF = .ok (.requestRead 0x7F 255) := by rfl

theorem witness_IllegalWordRaisesFault :
    let s := { booted with program := [0x100001], turns := [.fg] }
    s.fault = none ∧ s.refused = none ∧ s.drawTurn.1 = .fg ∧ s.fgPhase = .idle ∧
      s.program[s.fpc]? = some 0x100001 ∧ commandWf 0x100001 = false := by decide

theorem witness_UnmappedStatusIsRefused :
    let s := { booted with events := [⟨0x10, 0⟩], turns := [.periph] }
    s.fault = none ∧ s.refused = none ∧ s.drawTurn.1 = .periph ∧ s.enabled = true ∧
      s.events = ⟨0x10, 0⟩ :: [] ∧ statusClass s.statusMap 0x10 = none := by decide

theorem witness_StepRunsDecodedCommand :
    atWork.fault = none ∧ atWork.refused = none ∧ atWork.drawTurn.1 = .fg ∧ atWork.fgPhase = .idle ∧
      atWork.program[atWork.fpc]? = some 0x600000 ∧ decodeTableWord 24 0x600000 = some .available := by decide

theorem witness_StepRunsDecodedEvent :
    let s := { atWork with turns := [.periph] }
    s.fault = none ∧ s.refused = none ∧ s.drawTurn.1 = .periph ∧ s.enabled = true ∧ s.events = ⟨0x60, 0⟩ :: [] ∧
      decodeEvent s.statusMap ⟨0x60, 0⟩ = .ok .srSlaAck :=
  ⟨rfl, rfl, rfl, rfl, rfl, rfl⟩

/-- An agent's turn that passes: FG with no command, PERIPH with no event, PERIPH before `START_BUS`. -/
theorem witness_AnyAgentMayStepNext :
    ({ booted with turns := [.fg] }.drawTurn.1 = .fg ∧ { booted with turns := [.fg] }.program[0]? = none) ∧
      ({ booted with turns := [.periph] }.drawTurn.1 = .periph ∧ booted.events = []) ∧
      ({ State.reset with turns := [.periph] }.drawTurn.1 = .periph ∧ State.reset.enabled = false) := by decide

theorem witness_WaitingCommandCompletes :
    { booted with turns := [.fg], fgPhase := .waitRead, state := .sr }.fgPhase ≠ .idle ∧
      { booted with turns := [.fg], fgPhase := .waitRead, state := .sr }.state ≠ .ready ∧
      { booted with turns := [.fg], fgPhase := .waitWrite }.fgPhase = .waitWrite ∧
      { booted with turns := [.fg], fgPhase := .waitRead }.fgPhase = .waitRead ∧ booted.state = .ready ∧
      { booted with turns := [.fg], fgPhase := .waitRead }.drawTurn.1 = .fg := by decide

theorem witness_StepAppendsOutputAndKeepsParameters : ∃ t, step atWork = .next t ∧ t.fpc = 1 := ⟨_, rfl, rfl⟩

/-- A byte to read, and none left. -/
theorem witness_BufReadAdvancesOrAnswersZero :
    ((holding [0x12, 0x34] 1).cur < (holding [0x12, 0x34] 1).len ∧
        (holding [0x12, 0x34] 1).data.read 1 = some 0x34) ∧
      (holding [0x12] 1).len ≤ (holding [0x12] 1).cur := by decide

theorem witness_BufferPrimitivesKeepBounds :
    (holding [1, 2, 3] 3).cur ≤ (holding [1, 2, 3] 3).len ∧ (holding [1, 2, 3] 3).len ≤ (holding [1, 2, 3] 3).cap ∧
      (holding [1, 2, 3] 2).bufRead = some (3, holding [1, 2, 3] 3) := by decide

/-- A command in READY and in the other states. -/
theorem witness_StartBusEnablesBus : State.reset.state = .ready ∧ { booted with state := .sr }.state ≠ .ready := by
  decide

theorem witness_BeginWriteOpensWrite : State.reset.state = .ready ∧ { booted with state := .st }.state ≠ .ready := by
  decide

/-- A write open with room for one byte, with no room, and none open. -/
theorem witness_QueueByteAppends :
    { booted with wrOpen := true, mbuf := { Buf.empty 32 with len := 31 } }.wrOpen = true ∧
      { booted with wrOpen := true, mbuf := { Buf.empty 32 with len := 32 } }.wrOpen = true ∧
      booted.wrOpen = false := by decide

theorem witness_EndWriteStartsTransmit :
    booted.wrOpen = false ∧
      ({ State.reset with wrOpen := true }.wrOpen = true ∧ { State.reset with wrOpen := true }.enabled = false) ∧
      ({ booted with wrOpen := true, state := .sr }.enabled = true ∧
        { booted with wrOpen := true, state := .sr }.state ≠ .ready) ∧
      ({ booted with wrOpen := true }.wrOpen = true ∧ { booted with wrOpen := true }.enabled = true ∧
        { booted with wrOpen := true }.state = .ready) := by decide

/-- Counts of 0, 1, 32 and 255 against the capacity of 32, before and after `START_BUS`. -/
theorem witness_RequestReadStartsReceive :
    { booted with wrOpen := true }.wrOpen = true ∧
      (State.reset.wrOpen = false ∧ 0 < min (1 : Byte).toNat State.reset.mbuf.cap ∧ State.reset.enabled = false) ∧
      (booted.enabled = true ∧ { booted with state := .mt }.state ≠ .ready) ∧
      (min (0 : Byte).toNat State.reset.mbuf.cap = 0 ∧ State.reset.state = .ready) ∧
      (min (32 : Byte).toNat booted.mbuf.cap = 32 ∧ min (255 : Byte).toNat booted.mbuf.cap = 32 ∧
        booted.state = .ready) := by decide

theorem witness_AvailableCountsUnread :
    (booted.state ≠ .mt ∧ booted.state ≠ .mr) ∧ { booted with state := .mt }.state = .mt ∧ reading.state = .mr := by
  decide

/-- The last unread byte, none left, and a transaction in flight. -/
theorem witness_NextByteDrains :
    (let s := { booted with mbuf := holding [0x12, 0x34] 1 }
     s.state ≠ .mt ∧ s.state ≠ .mr ∧ s.mbuf.cur < s.mbuf.len ∧ s.readByte .master s.mbuf.cur = some 0x34) ∧
      (let s := { booted with mbuf := holding [0x12, 0x34] 2 }
       s.state ≠ .mt ∧ s.state ≠ .mr ∧ s.mbuf.len ≤ s.mbuf.cur) ∧
      reading.state = .mr := by decide

/-- One class of each group in a state it is not accepted in. -/
theorem witness_UnexpectedEventRaisesFault :
    (EventClass.start ∈ [EventClass.start, .arbLost] ∧ booted.state ≠ .mt ∧ booted.state ≠ .mr) ∧
      (EventClass.mtDataNack ∈ [EventClass.mtSlaAck, .mtSlaNack, .mtDataAck, .mtDataNack] ∧ reading.state ≠ .mt) ∧
      (EventClass.mrDataNack ∈ [EventClass.mrSlaAck, .mrSlaNack, .mrDataAck, .mrDataNack] ∧ booted.state ≠ .mr) ∧
      (EventClass.stSlaAck ∈ [EventClass.srSlaAck, .stSlaAck] ∧ reading.state ≠ .ready) ∧
      (EventClass.srStop ∈ [EventClass.srDataAck, .srDataNack, .srStop] ∧ booted.state ≠ .sr) ∧
      (EventClass.stLastData ∈ [EventClass.stDataAck, .stDataNack, .stLastData] ∧ booted.state ≠ .st) := by decide

theorem witness_AckMismatchRaisesFault :
    ({ reading with ackEn := false }.state = .mr ∧ { reading with ackEn := false }.ackEn = false) ∧
      (reading.state = .mr ∧ reading.ackEn = true) ∧
      ({ booted with state := .sr, ackEn := false }.state = .sr ∧ { booted with state := .st, ackEn := false }.state = .st)
      ∧ (EventClass.start ∉ [EventClass.mrDataAck, .mrDataNack, .srDataAck, .srDataNack, .stDataAck, .stLastData] ∧
        reading.fault = none) ∧ ∃ t, exec (EventClass.start.instr 0) reading = .next t :=
  ⟨by decide, by decide, by decide, by decide, _, rfl⟩

theorem witness_EveryEventEmitsOneAction :
    booted.fault = none ∧ ∃ t, exec (EventClass.busError.instr 0) booted = .next t ∧ t.fault = none :=
  ⟨rfl, _, rfl, rfl⟩

theorem witness_StartSendsAddressByte :
    reading.state = .mr ∧ { booted with state := .mt }.state = .mt ∧ booted.state = .ready ∧
      { booted with state := .sr }.state = .sr ∧ { booted with state := .st }.state = .st := by decide

/-- The last unsent byte, none unsent, and another state. -/
theorem witness_TransmitAckSendsNextOrStops :
    (let s := { booted with state := .mt, mbuf := holding [1, 2] 1 }
     s.state = .mt ∧ s.mbuf.cur < s.mbuf.len ∧ s.readByte .master s.mbuf.cur = some 2) ∧
      (let s := { booted with state := .mt, mbuf := holding [1, 2] 2 }
       s.state = .mt ∧ s.mbuf.len ≤ s.mbuf.cur) ∧ booted.state ≠ .mt := by decide

theorem witness_MasterNackStopsWithError :
    { booted with state := .mt }.state = .mt ∧ reading.state = .mr ∧ booted.state ≠ .mt ∧ booted.state ≠ .mr := by
  decide

theorem witness_ArbitrationLossReleases :
    reading.state = .mr ∧ { booted with state := .mt }.state = .mt ∧ booted.state = .ready := by decide

theorem witness_ReadAddressAckArmsFirstByte : reading.state = .mr ∧ booted.state ≠ .mr := by decide

theorem witness_ReadDataAckStoresAndArms :
    (reading.state = .mr ∧ reading.ackEn = true) ∧ { reading with ackEn := false }.ackEn = false ∧
      booted.state ≠ .mr := by decide

theorem witness_ReadDataNackStoresAndStops :
    ({ reading with ackEn := false }.state = .mr ∧ { reading with ackEn := false }.ackEn = false) ∧
      reading.ackEn = true ∧ booted.state ≠ .mr := by decide

theorem witness_SlaveReceiveBegins : booted.state = .ready ∧ reading.state ≠ .ready := by decide

theorem witness_SlaveReceiveStoresAndArms :
    ({ booted with state := .sr }.state = .sr ∧ { booted with state := .sr }.ackEn = true) ∧
      { booted with state := .sr, ackEn := false }.ackEn = false ∧ booted.state ≠ .sr := by decide

theorem witness_SlaveReceiveDiscardsWhenFull :
    ({ booted with state := .sr, ackEn := false }.state = .sr ∧ { booted with state := .sr, ackEn := false }.ackEn = false)
      ∧ { booted with state := .sr }.ackEn = true ∧ booted.state ≠ .sr := by decide

/-- No byte received, and a full buffer. -/
theorem witness_SlaveReceiveEndNotifiesThenReleases :
    (let s := { booted with state := .sr }
     s.state = .sr ∧ ∀ i < s.srbuf.len, (s.readByte .slaveRx i).isSome = true) ∧
      (let s := { booted with state := .sr, srbuf := (Buf.empty 2).fill [1, 2] }
       s.state = .sr ∧ ∀ i < s.srbuf.len, (s.readByte .slaveRx i).isSome = true) ∧ booted.state ≠ .sr := by decide

theorem witness_SlaveTransmitBegins : booted.state = .ready ∧ reading.state ≠ .ready := by decide

/-- The last unsent byte, none unsent, the latch disagreeing, another state. -/
theorem witness_SlaveTransmitSendsNext :
    (let s := { booted with state := .st, stbuf := holding [0xA1, 0xB2] 1 }
     s.state = .st ∧ s.ackEn = true ∧ s.stbuf.cur < s.stbuf.len ∧ s.readByte .slaveTx s.stbuf.cur = some 0xB2) ∧
      (let s := { booted with state := .st, stbuf := holding [0xA1] 1 }
       s.state = .st ∧ s.ackEn = true ∧ s.stbuf.len ≤ s.stbuf.cur) ∧
      { booted with state := .st, ackEn := false }.ackEn = false ∧ booted.state ≠ .st := by decide

theorem witness_SlaveTransmitEndReleases :
    { booted with state := .st, ackEn := false }.state = .st ∧ { booted with state := .st, ackEn := false }.ackEn = false
      ∧ { booted with state := .st }.ackEn = true ∧ booted.state ≠ .st := by decide

theorem witness_CommandsOnlyStartTransactions :
    isCommand .startBus = true ∧ ∃ t, exec .startBus State.reset = .next t := ⟨rfl, _, rfl⟩

theorem witness_EventsEndInReady : ∃ t, exec (EventClass.srSlaAck.instr 0) booted = .next t := ⟨_, rfl⟩

theorem witness_BuffersAreKeptApart :
    (∀ d, Instr.srStop ≠ .srDataAck d) ∧ Instr.srStop ≠ .srSlaAck ∧ Instr.srStop ≠ .stSlaAck ∧
      Instr.srStop ≠ .stDataAck ∧ isCommand .srStop = false ∧
      ∃ t, exec .srStop { booted with state := .sr } = .next t :=
  ⟨(by intro d h; cases h), by decide, by decide, by decide, rfl, _, rfl⟩

/-- Two states that differ in a byte past `len`. -/
theorem witness_BytesPastLengthAreNeverRead :
    booted.SameHeld { booted with mbuf := { booted.mbuf with data := [(0, 0x55)] } } ∧
      ∃ t, exec .nextByte booted = .next t := by
  refine ⟨⟨⟨rfl, rfl, rfl, ?_⟩, ⟨rfl, rfl, rfl, fun _ _ => rfl⟩, ⟨rfl, rfl, rfl, fun _ _ => rfl⟩, rfl⟩, _, rfl⟩
  intro i hi
  exact absurd hi (Nat.not_lt_zero i)

theorem witness_ReadStaysArmed :
    (reading.state = .mr ∧ reading.mbuf.len < reading.mrWant ∧ ∃ t, exec .mrSlaAck reading = .next t) ∧
      ({ reading with mrWant := 2 }.ReadArmed ∧ { reading with mrWant := 2 }.mrWant ≤ 32 ∧
        ∃ t, exec (.mrDataAck 0x9C) { reading with mrWant := 2 } = .next t ∧ t.fault = none) :=
  ⟨⟨rfl, by decide, _, rfl⟩, ⟨rfl, by decide, by decide⟩, by decide, _, rfl, rfl⟩

/-- A read of one byte (no acknowledged byte) and of 32. -/
theorem witness_MasterReadCapturesInOrder :
    (reading.state = .mr ∧ reading.mbuf.len = 0 ∧ reading.mrWant = ([] : List Byte).length + 1 ∧
        ([] : List Byte).length + 1 ≤ reading.mbuf.cap) ∧
      (let s := { reading with mrWant := 32 }
       s.mrWant = (List.replicate 31 (0x5A : Byte)).length + 1 ∧
          (List.replicate 31 (0x5A : Byte)).length + 1 ≤ s.mbuf.cap) := by decide

/-- Nothing queued, and two bytes. -/
theorem witness_MasterWriteSendsInOrder :
    (let s := { booted with state := .mt }
     s.state = .mt ∧ s.mbuf.cur = 0 ∧ s.mbuf.held = some []) ∧
      (let s := { booted with state := .mt, mbuf := holding [1, 2] 0 }
       s.state = .mt ∧ s.mbuf.cur = 0 ∧ s.mbuf.held = some [1, 2]) := by decide

/-- Room left, and a full buffer with a byte more. -/
theorem witness_SlaveReceiveNotifiesWhatFits :
    (booted.state = .ready ∧ 1 ≤ booted.srbuf.cap ∧ ([1, 2] : List Byte).length ≤ booted.srbuf.cap) ∧
      (let s := { booted with srbuf := Buf.empty 2 }
       s.state = .ready ∧ 1 ≤ s.srbuf.cap ∧ ([1, 2] : List Byte).length = s.srbuf.cap) := by decide

theorem witness_SlaveTransmitSendsInOrder :
    let s := { booted with txReplies := [[0xA1, 0xB2]] }
    s.state = .ready ∧ s.txReplies = ([0xA1] ++ [0xB2]) :: [] ∧ ([0xA1] : List Byte).length + 1 ≤ s.stbuf.cap := by
  decide

theorem witness_QueueBytesStoresWhatFits :
    let s := { booted with wrOpen := true, mbuf := holding [1, 2] 0 }
    s.wrOpen = true ∧ s.mbuf.len ≤ s.mbuf.cap ∧ s.mbuf.held = some [1, 2] := by decide

end Sys2Proof.Tests
end

section
/-! PROOFS, 00_scope.md. The step as the turn of a known agent, and the turns that pass. -/

namespace Sys2Proof.Machine

/-! ## The step at a known agent's turn (R9, log 1) -/

/-- At FG's turn the step is FG's turn. -/
theorem step_fg {s : State} (h : s.clear) (ha : s.drawTurn.1 = .fg) : step s = fgTurn s.drawTurn.2 := by
  rw [step_clear h, ha, agentTurn]

/-- At PERIPH's turn the step is PERIPH's turn. -/
theorem step_periph {s : State} (h : s.clear) (ha : s.drawTurn.1 = .periph) :
    step s = periphTurn s.drawTurn.2 := by
  rw [step_clear h, ha, agentTurn]

/-! ## Turns that pass (R80, R58, R103) -/

/-- FG with no command left, in no waiting command, lets its turn pass. -/
theorem fgTurn_exhausted {s : State} (hp : s.fgPhase = .idle) (hn : s.program[s.fpc]? = none) :
    fgTurn s = .next s := by
  simp only [fgTurn, hp, issue, hn]

/-- PERIPH before `START_BUS`, or with no event to deliver, lets its turn pass. -/
theorem periphTurn_passes {s : State} (h : s.enabled = false ∨ s.events = []) : periphTurn s = .next s := by
  rcases periphTurn_cases s with ⟨_, hpass⟩ | ⟨e, rest, i, he, hev, _⟩ | ⟨e, rest, he, hev, _⟩
  · exact hpass
  all_goals simp [he, hev] at h

/-- Settles O18: the step is the turn of the agent drawn, and a draw writes none of the fields that decide whether the
turn passes. -/
theorem anyAgentMayStepNext : Obligations.AnyAgentMayStepNext := by
  refine ⟨fun s a rest hs ht => ?_, fun s hs ha hp hn => ?_, fun s hs ha h => ?_⟩
  · rw [step_clear hs, State.drawTurn_listed ht]
  · rw [step_fg hs ha]
    exact fgTurn_exhausted (by simpa using hp) (by simpa using hn)
  · rw [step_periph hs ha]
    exact periphTurn_passes (by simpa using h)

end Sys2Proof.Machine
end

section
/-! PROOFS, 10_state.md. What a step keeps: the invariant, the output and the parameters; what commands and events may do
to the state machine; the status word. -/

namespace Sys2Proof.Machine

section
variable {s t : State}

/-! ## The buffer primitives keep a buffer as R20 and R56 have it -/

theorem Buf.Ok.bufReset {B : Buf} (h : B.Ok) : B.bufReset.Ok :=
  { h with
    cursor := Nat.le_refl 0
    length := Nat.zero_le _
    written := by simp }

theorem Buf.Ok.bufWrite {B : Buf} (h : B.Ok) (b : Byte) : (B.bufWrite b).1.Ok := by
  by_cases hroom : B.len < B.cap
  · rw [Buf.bufWrite_room b hroom]
    refine
      { capacity := h.capacity
        length := hroom
        canonical := Memory.write_wf _ _ h.canonical
        inside := fun c hc => ?_
        cursor := Nat.le_succ_of_le h.cursor
        written := fun i hi => ?_ }
    · rcases Memory.mem_write hc with rfl | hc
      · exact hroom
      · exact h.inside c hc
    · have hi : i < B.len + 1 := hi
      rw [Memory.read_write]
      split
      · rfl
      · next hne => exact h.written i (by omega)
  · rwa [Buf.bufWrite_full b hroom]

theorem Buf.Ok.fill {B : Buf} (h : B.Ok) (L : List Byte) : (B.fill L).Ok := by
  induction L generalizing B with
  | nil => exact h
  | cons b L ih => exact ih (h.bufWrite b)

/-- The cursor may stand anywhere up to `len`. -/
theorem Buf.Ok.withCur {B : Buf} (h : B.Ok) {c : Nat} (hc : c ≤ B.len) : ({ B with cur := c } : Buf).Ok :=
  { h with cursor := hc }

theorem Buf.Ok.bufRead {B B' : Buf} {b : Byte} (h : B.Ok) (hr : B.bufRead = some (b, B')) : B'.Ok := by
  rcases Buf.bufRead_cases hr with ⟨hlt, _, rfl⟩ | ⟨_, _, rfl⟩
  · exact h.withCur hlt
  · exact h

theorem Buf.bufRead_cap {B B' : Buf} {b : Byte} (hr : B.bufRead = some (b, B')) : B'.cap = B.cap := by
  rcases Buf.bufRead_cases hr with ⟨_, _, rfl⟩ | ⟨_, _, rfl⟩ <;> rfl

/-! ## The state's operations keep the invariant

Each lemma names the fields of the invariant that its operation touches; `{ h with … }` takes the others over. -/

/-- A fault is recorded only where no refusal is (R101, R102). -/
theorem State.Inv.raised (h : s.Inv) (hr : s.refused = none) (r : FaultRecord) : { s with fault := some r }.Inv :=
  { h with oneRecord := .inr hr }

theorem State.Inv.refused (h : s.Inv) (hf : s.fault = none) (r : RefusalRecord) :
    { s with refused := some r }.Inv :=
  { h with oneRecord := .inl hf }

theorem State.Inv.drawTurn (h : s.Inv) : s.drawTurn.2.Inv := by
  unfold State.drawTurn; split <;> exact { h with }

theorem State.Inv.drawReply (h : s.Inv) : s.drawReply.2.Inv := by
  unfold State.drawReply; split <;> exact { h with }

theorem State.Inv.drawByte (h : s.Inv) : s.drawByte.2.Inv := { h with }

theorem State.Inv.notify (h : s.Inv) (bytes : List Byte) : (s.notify bytes).Inv := { h with }

/-- Another master buffer of the same capacity, its cursor 0 wherever a read needs that. -/
theorem State.Inv.withMbuf (h : s.Inv) {B : Buf} (hB : B.Ok) (hcap : B.cap = s.mbuf.cap)
    (hcur : s.state = .mr ∨ s.fgPhase = .waitRead → B.cur = 0) : { s with mbuf := B }.Inv :=
  { h with
    mbuf := hB
    capM := hcap.trans h.capM
    reading := fun hs => ⟨hcur (.inl hs), (h.reading hs).2⟩
    waitRead := fun hp => ⟨(h.waitRead hp).1, hcur (.inr hp)⟩ }

/-- Storing a byte leaves the cursor where it is (R52). -/
theorem State.Inv.storeMaster (h : s.Inv) (d : Byte) : { s with mbuf := (s.mbuf.bufWrite d).1 }.Inv := by
  refine h.withMbuf (h.mbuf.bufWrite d) (Buf.bufWrite_cap _ _) fun hr => ?_
  rw [Buf.bufWrite_cur]
  exact hr.elim (fun hs => (h.reading hs).1) fun hp => (h.waitRead hp).2

theorem State.Inv.resetMaster (h : s.Inv) : { s with mbuf := s.mbuf.bufReset }.Inv :=
  h.withMbuf h.mbuf.bufReset rfl fun _ => rfl

/-- FG's index moves on only when FG waits in no command. -/
theorem State.Inv.respond (h : s.Inv) (hp : s.fgPhase = .idle) (v : Byte) : (s.respond v).Inv :=
  { h with waiting := by simp [hp] }

/-- Into a state that is no master's, where the invariant asks nothing of a master transaction. -/
theorem State.Inv.withState (h : s.Inv) {b : BusState} (hm : b ≠ .mt ∧ b ≠ .mr) (he : b ≠ .ready → s.enabled = true)
    (hrx : b = .sr → s.srbuf.cur = 0 ∧ (s.ackEn = true ↔ s.srbuf.len < s.srbuf.cap))
    (htx : b = .st → (s.ackEn = true ↔ s.stbuf.cur < s.stbuf.len)) : { s with state := b }.Inv :=
  { h with
    busyEnabled := he
    inFlight := by simp [hm]
    writeSla := by simp [hm]
    readSla := by simp [hm]
    reading := by simp [hm]
    waitWrite := fun _ => hm.2
    waitRead := fun hp => ⟨hm.1, (h.waitRead hp).2⟩
    slaveRx := hrx
    slaveTx := htx }

/-- In READY nothing about a transaction is left to hold. -/
theorem State.Inv.inReady (h : s.Inv) : { s with state := .ready }.Inv :=
  h.withState (by simp) (by simp) (by simp) (by simp)

theorem State.Inv.failWith (h : s.Inv) {e : TxnError} (he : e ≠ .lengthTooLong) (a : BusAct) :
    (s.failWith e a).Inv :=
  { h.inReady with
    errLegal := he
    inFlight := by simp
    slaveRx := by simp
    slaveTx := by simp }

/-- The end of a transaction without an error is the end with the error left as it is. -/
theorem State.Inv.finish (h : s.Inv) (a : BusAct) : (s.finish a).Inv := h.failWith h.errLegal a

/-- In a master transaction the invariant says nothing of the latch. -/
theorem State.Inv.emit_master (h : s.Inv) (hm : s.state = .mt ∨ s.state = .mr) (a : BusAct) (tx : Option Byte) :
    (s.emit a tx).Inv :=
  { h with
    slaveRx := by rcases hm with hm | hm <;> simp [hm]
    slaveTx := by rcases hm with hm | hm <;> simp [hm] }

/-! ## The commands keep the invariant -/

/-- `START_BUS` leaves the block in READY, where no transaction is in flight (R84). -/
theorem State.Inv.boot (h : s.Inv) :
    { s with state := .ready, enabled := true, ackEn := true
             divisor := Config.divisorFn Config.fCpu Config.fScl }.Inv :=
  { h.inReady with
    busyEnabled := fun _ => rfl
    slaveRx := by simp
    slaveTx := by simp }

/-- `BEGIN_WRITE` opens a write in READY, while FG waits in no command (R85). -/
theorem State.Inv.openWrite (h : s.Inv) (hp : s.fgPhase = .idle) (hs : s.state = .ready) (addr : BusAddr) :
    { s with tgt := addr, wrOpen := true, mbuf := s.mbuf.bufReset }.Inv :=
  { h.resetMaster with
    inFlight := by simp [hs]
    writeSla := by simp [hs]
    waiting := by simp [hp] }

/-- `END_WRITE` starts its transaction from READY with the bus enabled (R87). -/
theorem State.Inv.startWrite (h : s.Inv) (hp : s.fgPhase = .idle) (he : s.enabled = true) : s.startWrite.Inv :=
  { h with
    mbuf := h.mbuf.withCur (Nat.zero_le _)
    errLegal := by simp
    busyEnabled := fun _ => he
    inFlight := by simp
    writeSla := by simp
    readSla := by simp
    reading := by simp
    waiting := by simp [hp]
    waitWrite := by simp
    waitRead := by simp [hp]
    slaveRx := by simp
    slaveTx := by simp }

/-- The address byte of a read has its direction bit set (R50). -/
theorem slaByte_read_bit (addr : BusAddr) : (slaByte addr true).getLsbD 0 = true := by simp [slaByte]

/-- `REQUEST_READ` starts its transaction from an empty buffer, with a count that fits (R88). -/
theorem State.Inv.startRead (h : s.Inv) (hw : s.wrOpen = false) (he : s.enabled = true) (hcur : s.mbuf.cur = 0)
    (hpc : s.fpc < s.program.length) (addr : BusAddr) {k : Nat} (hk : 0 < k) (hcap : k ≤ s.mbuf.cap) :
    (s.startRead addr k).Inv :=
  { h with
    errLegal := by simp
    busyEnabled := fun _ => he
    inFlight := fun _ => ⟨hw, rfl⟩
    writeSla := by simp
    readSla := fun _ => slaByte_read_bit addr
    reading := fun _ => ⟨hcur, hk⟩
    wantBound := hcap.trans h.capM.le
    waiting := fun _ => ⟨hw, hpc⟩
    waitWrite := by simp
    waitRead := fun _ => ⟨by simp, hcur⟩
    slaveRx := by simp
    slaveTx := by simp }

/-- A command of FG's list, issued while FG waits in none, keeps the invariant. -/
theorem CommandEffect.keeps_inv (hc : CommandEffect s t) (h : s.Inv) (hr : s.refused = none) (hp : s.fgPhase = .idle)
    (hpc : s.fpc < s.program.length) : t.Inv := by
  cases hc with
  | faulted r => exact h.raised hr r
  | held => exact h
  | booted => exact h.boot.respond hp _
  | opened addr hs => exact (h.openWrite hp hs addr).respond hp _
  | queued b => exact (h.storeMaster b).respond hp _
  | writeWaiting _ he =>
    exact
      { h.startWrite hp he with
        waiting := fun _ => ⟨rfl, hpc⟩
        waitWrite := by simp
        waitRead := by simp }
  | writeStarted _ he => exact (h.startWrite hp he).drawByte.respond hp _
  | readNothing => exact h.resetMaster.respond hp _
  | readWaiting addr k hw he _ hk hcap => exact h.resetMaster.startRead hw he rfl hpc addr hk hcap
  | counted => exact h.respond hp _
  | drained v B hm hB =>
    exact (h.withMbuf (h.mbuf.bufRead hB) (Buf.bufRead_cap hB) (by simp [hm.2, hp])).respond hp v

/-- The completion of a waiting command keeps the invariant (R82). -/
theorem complete_keeps_inv (h : s.Inv) (hx : complete s = .next t) : t.Inv := by
  have hidle : { s with fgPhase := .idle }.Inv :=
    { h with waiting := by simp, waitWrite := by simp, waitRead := by simp }
  unfold complete at hx
  split at hx
  · rwa [hold_next.mp hx]
  split at hx
  · rwa [hold_next.mp hx]
  · cases hx; exact hidle.respond rfl _
  · cases hx; exact hidle.respond rfl _

/-! ## The events keep the invariant -/

/-- A master send moves the cursor in MT only, where no waiting read looks at it (R62). -/
theorem sendMaster_keeps_inv (h : s.Inv) (hs : s.state = .mt) (hx : sendMaster s = .next t) : t.Inv := by
  rcases sendMaster_next hx with ⟨b, hlt, _, rfl⟩ | ⟨_, rfl⟩
  · have hnoread : s.fgPhase ≠ .waitRead := fun hp => (h.waitRead hp).1 hs
    have hsent : { s with mbuf := { s.mbuf with cur := s.mbuf.cur + 1 } }.Inv :=
      h.withMbuf (h.mbuf.withCur hlt) rfl (by simp [hs, hnoread])
    exact hsent.emit_master (.inl hs) _ _
  · exact h.finish _

/-- A slave send arms by what is left to send, whatever the latch held before (R77, R78). -/
theorem sendSlave_keeps_inv {a : Bool} (h : { s with ackEn := a }.Inv) (hs : s.state = .st)
    (hx : sendSlave s = .next t) : t.Inv := by
  rcases sendSlave_next hx with ⟨b, hlt, _, rfl⟩ | ⟨hend, rfl⟩
  · exact
      { h with
        stbuf := h.stbuf.withCur hlt
        slaveRx := by simp [hs]
        slaveTx := by simp }
  · exact
      { h with
        slaveRx := by simp [hs]
        slaveTx := by simp [hend, ackAfter] }

/-- A slave transmit begins with the filled buffer (R77). -/
theorem startSlaveTransmit_keeps_inv (h : s.Inv) (he : s.enabled = true) (L : List Byte)
    (hx : startSlaveTransmit L s = .next t) : t.Inv := by
  have hfilled : { s with
      state := .ready, stbuf := s.stbuf.bufReset.fill L
      ackEn := decide (0 < (s.stbuf.bufReset.fill L).len) }.Inv :=
    { h.inReady with
      stbuf := h.stbuf.bufReset.fill L
      slaveRx := by simp
      slaveTx := by simp }
  exact sendSlave_keeps_inv (hfilled.withState (b := .st) (by simp) (fun _ => he) (by simp) (by simp)) rfl hx

/-- A slave receive begins with an empty buffer, which has room (R7, R73). -/
theorem State.Inv.beginReceive (h : s.Inv) (he : s.enabled = true) :
    (State.emit .ack none { s with state := .sr, srbuf := s.srbuf.bufReset }).Inv := by
  have hempty : { s with state := .ready, srbuf := s.srbuf.bufReset, ackEn := true }.Inv :=
    { h.inReady with
      srbuf := h.srbuf.bufReset
      slaveRx := by simp
      slaveTx := by simp }
  have hroom : 0 < s.srbuf.cap := h.srbuf.capacity.1
  exact { hempty.withState (b := .sr) (by simp) (fun _ => he) (by simp [hroom]) (by simp) with }

/-- A slave receive that stores a byte arms by the room left after it (R74). -/
theorem State.Inv.storeSlave (h : s.Inv) (hs : s.state = .sr) (d : Byte) :
    (State.armSlave { s with srbuf := (s.srbuf.bufWrite d).1 }).Inv :=
  { h with
    srbuf := h.srbuf.bufWrite d
    slaveRx := fun _ => ⟨by simpa using (h.slaveRx hs).1, by simp⟩
    slaveTx := by simp [hs] }

/-- A discarded byte negative-acknowledges the next one too: the latch stays as it was (R75). -/
theorem State.Inv.discardSlave (h : s.Inv) (hs : s.state = .sr) (ha : s.ackEn = false) : (s.emit .nack none).Inv :=
  { h with
    slaveRx := fun _ => by simpa [ha, ackAfter] using h.slaveRx hs
    slaveTx := by simp [hs] }

/-- The rule of an event that is accepted, with an agreeing latch, keeps the invariant. -/
theorem eventRule_keeps_inv {cls : EventClass} {d : Byte} (h : s.Inv) (he : s.enabled = true)
    (ha : s.state ∈ acceptedIn cls) (hl : ∀ a, latchRequired cls = some a → s.ackEn = a)
    (hx : eventRule cls d s = .next t) : t.Inv := by
  cases cls <;> simp only [eventRule] at hx
  case busError => cases hx; exact h.failWith (by decide) _
  case mtSlaNack => cases hx; exact h.failWith (by decide) _
  case mtDataNack => cases hx; exact h.failWith (by decide) _
  case arbLost => cases hx; exact h.failWith (by decide) _
  case mrSlaNack => cases hx; exact h.failWith (by decide) _
  case stDataNack => cases hx; exact h.finish _
  case stLastData => cases hx; exact h.finish _
  case start => cases hx; exact h.emit_master (by simpa [acceptedIn] using ha) _ _
  case mtSlaAck => exact sendMaster_keeps_inv h (by simpa [acceptedIn] using ha) hx
  case mtDataAck => exact sendMaster_keeps_inv h (by simpa [acceptedIn] using ha) hx
  case mrSlaAck => cases hx; exact h.emit_master (.inr (by simpa [acceptedIn] using ha)) _ _
  case mrDataAck =>
    cases hx; exact (h.storeMaster d).emit_master (.inr (by simpa [acceptedIn] using ha)) _ _
  case mrDataNack => cases hx; exact (h.storeMaster d).finish _
  case srSlaAck => cases hx; exact h.beginReceive he
  case srDataAck => cases hx; exact h.storeSlave (by simpa [acceptedIn] using ha) d
  case srDataNack => cases hx; exact h.discardSlave (by simpa [acceptedIn] using ha) (hl _ rfl)
  case srStop =>
    split at hx
    · cases hx; exact (h.notify _).finish _
    · cases hx
  case stSlaAck => exact startSlaveTransmit_keeps_inv h.drawReply (by simpa using he) _ hx
  case stDataAck => exact sendSlave_keeps_inv h (by simpa [acceptedIn] using ha) hx

/-- A delivered event keeps the invariant, whether it is dispatched to its rule or raises a fault (R58). -/
theorem event_keeps_inv {cls : EventClass} {d : Byte} (h : s.Inv) (hr : s.refused = none) (he : s.enabled = true)
    (hx : exec (cls.instr d) s = .next t) : t.Inv := by
  rw [exec_event] at hx
  rcases dispatch_cases cls (eventRule cls d) s with ⟨ha, hl, hd⟩ | ⟨_, hd⟩ | ⟨_, _, hd⟩ <;> rw [hd] at hx
  · exact eventRule_keeps_inv h he ha hl hx
  · rw [raise_next.mp hx]; exact h.raised hr _
  · rw [raise_next.mp hx]; exact h.raised hr _

/-! ## The turns and the step keep the invariant -/

theorem fgTurn_keeps_inv (h : s.Inv) (hc : s.clear) (hx : fgTurn s = .next t) : t.Inv := by
  rcases fgTurn_cases s with ⟨_, _, hf⟩ | ⟨c, i, hp, hg, hd, hf⟩ | ⟨c, _, _, hf⟩ | ⟨_, hf⟩ <;> rw [hf] at hx
  · cases hx; exact h
  · obtain ⟨hpc, _⟩ := List.getElem?_eq_some_iff.mp hg
    exact (command_cases (decodeCommand_isCommand hd) hx).keeps_inv h hc.2 hp hpc
  · rw [raise_next.mp hx]; exact h.raised hc.2 _
  · exact complete_keeps_inv h hx

theorem periphTurn_keeps_inv (h : s.Inv) (hc : s.clear) (hx : periphTurn s = .next t) : t.Inv := by
  have hconsumed (rest : List BusEvent) : { s with events := rest }.Inv := { h with }
  rcases periphTurn_cases s with ⟨_, hf⟩ | ⟨e, rest, i, he, _, hd, hf⟩ | ⟨e, rest, _, _, hf⟩ <;> rw [hf] at hx
  · cases hx; exact h
  · obtain ⟨cls, _, rfl⟩ := decodeEvent_ok hd
    exact event_keeps_inv (hconsumed rest) hc.2 he hx
  · rw [refuse_next.mp hx]; exact (hconsumed rest).refused hc.1 _

/-- Drawing the turn writes no record. -/
theorem drawTurn_clear (h : s.clear) : s.drawTurn.2.clear := by simpa [State.clear] using h

end

/-- Settles O3: the turn drawn is FG's or PERIPH's, and each keeps the invariant in a state with no record. -/
theorem stepKeepsInvariant : Obligations.StepKeepsInvariant := by
  intro s t h hx
  obtain ⟨hc, hx⟩ := step_next hx
  cases ha : s.drawTurn.1 <;> rw [ha] at hx
  case fg => exact fgTurn_keeps_inv h.drawTurn (drawTurn_clear hc) hx
  case periph => exact periphTurn_keeps_inv h.drawTurn (drawTurn_clear hc) hx

/-! ## What every step keeps and extends -/

section
variable {s t : State}

@[simp] theorem filterMap_respond?_bus (a : BusAct) (tx : Option Byte) (rest : List Output) :
    (.bus a tx :: rest).filterMap Output.respond? = rest.filterMap Output.respond? := rfl

@[simp] theorem filterMap_respond?_notify (bytes : List Byte) (rest : List Output) :
    (.notify bytes :: rest).filterMap Output.respond? = rest.filterMap Output.respond? := rfl

/-- `t` comes after `s` with `new` put out: FG's index has advanced by the responses in `new`, at most one, and the
parameters and FG's list are as they were. -/
structure State.Extends (s : State) (new : List Output) (t : State) : Prop where
  outlog     : t.outlog = s.outlog ++ new
  fpc        : t.fpc = s.fpc + (new.filterMap Output.respond?).length
  atMostOne  : (new.filterMap Output.respond?).length ≤ 1
  statusMap  : t.statusMap = s.statusMap
  program    : t.program = s.program
  mbufCap    : t.mbuf.cap = s.mbuf.cap
  srbufCap   : t.srbuf.cap = s.srbuf.cap
  stbufCap   : t.stbuf.cap = s.stbuf.cap

/-- A draw of the turn puts out nothing and is seen by none of these fields. -/
theorem State.Extends.of_drawTurn {new : List Output} (h : s.drawTurn.2.Extends new t) : s.Extends new t := by
  constructor
  · simpa using h.outlog
  · simpa using h.fpc
  · exact h.atMostOne
  · simpa using h.statusMap
  · simpa using h.program
  · simpa using h.mbufCap
  · simpa using h.srbufCap
  · simpa using h.stbufCap

theorem State.Extends.refl (s : State) : s.Extends [] s := by constructor <;> simp

theorem CommandEffect.extends (hc : CommandEffect s t) : ∃ new, s.Extends new t := by
  cases hc with
  | faulted => exact ⟨[], by constructor <;> simp⟩
  | held => exact ⟨[], .refl _⟩
  | booted => exact ⟨[.respond 0x00], by constructor <;> simp⟩
  | opened => exact ⟨[.respond 0x00], by constructor <;> simp⟩
  | queued b => exact ⟨[.respond (fullByte (s.mbuf.bufWrite b).2)], by constructor <;> simp⟩
  | writeWaiting => exact ⟨[.bus .start none], by constructor <;> simp⟩
  | writeStarted => exact ⟨[.bus .start none, .respond s.startWrite.drawByte.1], by constructor <;> simp⟩
  | readNothing => exact ⟨[.respond 0x00], by constructor <;> simp⟩
  | readWaiting => exact ⟨[.bus .start none], by constructor <;> simp⟩
  | counted => exact ⟨[.respond (countByte s.mbuf.bufAvail)], by constructor <;> simp⟩
  | drained v B _ hB => exact ⟨[.respond v], by constructor <;> simp [Buf.bufRead_cap hB]⟩

theorem EventEffect.extends {cls : EventClass} {d : Byte} (he : EventEffect cls d s t) : ∃ new, s.Extends new t := by
  cases he with
  | failed _ a => exact ⟨[.bus a none], by constructor <;> simp⟩
  | finished a => exact ⟨[.bus a none], by constructor <;> simp⟩
  | emitted a tx => exact ⟨[.bus a tx], by constructor <;> simp⟩
  | sent b => exact ⟨[.bus .ack (some b)], by constructor <;> simp⟩
  | stored =>
    exact ⟨[.bus (armFor (decide ((s.mbuf.bufWrite d).1.len + 1 < s.mrWant))) none], by constructor <;> simp⟩
  | storedLast => exact ⟨[.bus .stop none], by constructor <;> simp⟩
  | addressed => exact ⟨[.bus .ack none], by constructor <;> simp⟩
  | received =>
    exact ⟨[.bus (armFor (decide ((s.srbuf.bufWrite d).1.len < s.srbuf.cap))) none], by constructor <;> simp⟩
  | notified bytes => exact ⟨[.notify bytes, .bus .release none], by constructor <;> simp⟩
  | answered _ _ _ ht =>
    obtain ⟨a, tx, c, rfl⟩ := sendSlave_effect ht
    exact ⟨[.bus a tx], by constructor <;> simp⟩
  | sentSlave _ _ _ ht =>
    obtain ⟨a, tx, c, rfl⟩ := sendSlave_effect ht
    exact ⟨[.bus a tx], by constructor <;> simp⟩

theorem complete_extends (hx : complete s = .next t) : ∃ new, s.Extends new t := by
  unfold complete at hx
  split at hx
  · rw [hold_next.mp hx]; exact ⟨[], .refl _⟩
  split at hx
  · rw [hold_next.mp hx]; exact ⟨[], .refl _⟩
  · cases hx; exact ⟨[.respond (codeByte s.err.code)], by constructor <;> simp⟩
  · cases hx; exact ⟨[.respond (countByte s.mbuf.len)], by constructor <;> simp⟩

theorem exec_event_extends {cls : EventClass} {d : Byte} (hx : exec (cls.instr d) s = .next t) :
    ∃ new, s.Extends new t := by
  rcases event_cases hx with ⟨r, rfl⟩ | ⟨_, _, he⟩
  · exact ⟨[], by constructor <;> simp⟩
  · exact he.extends

theorem fgTurn_extends (hx : fgTurn s = .next t) : ∃ new, s.Extends new t := by
  rcases fgTurn_cases s with ⟨_, _, hf⟩ | ⟨c, i, _, _, hd, hf⟩ | ⟨c, _, _, hf⟩ | ⟨_, hf⟩ <;> rw [hf] at hx
  · cases hx; exact ⟨[], .refl _⟩
  · exact (command_cases (decodeCommand_isCommand hd) hx).extends
  · rw [raise_next.mp hx]; exact ⟨[], by constructor <;> simp⟩
  · exact complete_extends hx

theorem periphTurn_extends (hx : periphTurn s = .next t) : ∃ new, s.Extends new t := by
  rcases periphTurn_cases s with ⟨_, hf⟩ | ⟨e, rest, i, _, _, hd, hf⟩ | ⟨e, rest, _, _, hf⟩ <;> rw [hf] at hx
  · cases hx; exact ⟨[], .refl _⟩
  · obtain ⟨cls, _, rfl⟩ := decodeEvent_ok hd
    obtain ⟨new, h⟩ := exec_event_extends hx
    exact ⟨new, { h with }⟩
  · rw [refuse_next.mp hx]; exact ⟨[], by constructor <;> simp⟩

theorem step_extends (hx : step s = .next t) : ∃ new, s.Extends new t := by
  obtain ⟨_, hx⟩ := step_next hx
  have hturn : ∃ new, s.drawTurn.2.Extends new t := by
    cases ha : s.drawTurn.1 <;> rw [ha] at hx
    case fg => exact fgTurn_extends hx
    case periph => exact periphTurn_extends hx
  exact hturn.imp fun _ => State.Extends.of_drawTurn

end

/-- Settles O20: what a step puts out holds the responses FG's index counts. -/
theorem stepAppendsOutputAndKeepsParameters : Obligations.StepAppendsOutputAndKeepsParameters := by
  intro s t hx
  obtain ⟨new, h⟩ := step_extends hx
  have hresp : t.responses = s.responses ++ new.filterMap Output.respond? := by
    simp [State.responses, h.outlog]
  have hone := h.atMostOne
  refine ⟨⟨new, h.outlog⟩, ?_, h.statusMap, h.program, h.mbufCap, h.srbufCap, h.stbufCap⟩
  rw [hresp, h.fpc, List.length_append]
  omega

/-! ## What commands and events may do to the state machine (R16, R17) -/

/-- Settles O49: of what a command can leave, only the starts of a transaction leave READY, and they latch no error. -/
theorem commandsOnlyStartTransactions : Obligations.CommandsOnlyStartTransactions := by
  intro i s t hi hx
  cases command_cases hi hx with
  | booted hs => exact ⟨.inl hs.symm, .inl rfl, fun _ => rfl⟩
  | writeWaiting _ _ hs => exact ⟨.inr ⟨hs, .inl rfl⟩, .inr rfl, id⟩
  | writeStarted _ _ hs => exact ⟨.inr ⟨hs, .inl rfl⟩, .inr rfl, id⟩
  | readWaiting _ _ _ _ hs => exact ⟨.inr ⟨hs, .inr rfl⟩, .inr rfl, id⟩
  | _ => exact ⟨.inl rfl, .inl rfl, id⟩

/-- The fields that only commands write are the same in both states. -/
def State.SameCommanded (s t : State) : Prop :=
  t.tgt = s.tgt ∧ t.wrOpen = s.wrOpen ∧ t.sla = s.sla ∧ t.mrWant = s.mrWant ∧ t.enabled = s.enabled ∧
    t.divisor = s.divisor ∧ t.fgPhase = s.fgPhase ∧ t.fpc = s.fpc

section
variable {s t : State}

theorem EventEffect.sameCommanded {cls : EventClass} {d : Byte} (he : EventEffect cls d s t) : s.SameCommanded t := by
  cases he with
  | answered _ _ _ ht =>
    obtain ⟨a, tx, c, rfl⟩ := sendSlave_effect ht
    simp [State.SameCommanded]
  | sentSlave _ _ _ ht =>
    obtain ⟨a, tx, c, rfl⟩ := sendSlave_effect ht
    simp [State.SameCommanded]
  | _ => simp [State.SameCommanded]

/-- An accepted event ends in READY or stays in its state, but for the two address events (R17, R72). -/
theorem EventEffect.state {cls : EventClass} {d : Byte} (he : EventEffect cls d s t) :
    t.state = s.state ∨ t.state = .ready ∨ (s.state = .ready ∧ (t.state = .sr ∨ t.state = .st)) := by
  cases he with
  | failed => exact .inr (.inl rfl)
  | finished => exact .inr (.inl rfl)
  | storedLast => exact .inr (.inl rfl)
  | notified => exact .inr (.inl rfl)
  | addressed _ hs => exact .inr (.inr ⟨hs, .inl rfl⟩)
  | answered _ _ hs ht =>
    obtain ⟨a, tx, c, rfl⟩ := sendSlave_effect ht
    exact .inr (.inr ⟨hs, .inr rfl⟩)
  | sentSlave _ _ _ ht =>
    obtain ⟨a, tx, c, rfl⟩ := sendSlave_effect ht
    exact .inl rfl
  | _ => exact .inl rfl

end

/-- Settles O50: an event raises a fault, which writes none of these fields, or has its effect. -/
theorem eventsEndInReady : Obligations.EventsEndInReady := by
  intro cls d s t hx
  rcases event_cases hx with ⟨r, rfl⟩ | ⟨_, _, he⟩
  · simp
  · exact ⟨he.state, he.sameCommanded⟩

/-! ## The status word (R25) -/

/-- The shifted fields of R25 do not overlap, so or-ing them is setting them side by side. -/
theorem statFields_append : ∀ (en : Bool) (err st : BitVec 3),
    (BitVec.ofBool en).zeroExtend 8 <<< 7 ||| err.zeroExtend 8 <<< 4 ||| st.zeroExtend 8
      = BitVec.ofBool en ++ err ++ 0#1 ++ st := by decide

/-- Settles O15: the word is its fields side by side, all of them 0 at reset. -/
theorem statusWordLayout : Obligations.StatusWordLayout :=
  ⟨fun s => statFields_append s.enabled s.err.code s.state.code, rfl⟩

/-! ## A data event with no address event before it (D25) -/

/-- What `REQUEST_READ 0x68, 1` leaves. Its START latched acknowledge (R59), and no address event has yet armed the latch
by the count. -/
def readJustStarted : State :=
  State.startRead 0x68 1 { State.reset with enabled := true, program := [requestReadWord 0x68 1] }

theorem readJustStarted_inv : readJustStarted.Inv := by
  have hempty : (Buf.empty 32).Ok := by constructor <;> decide
  exact
    { mbuf := hempty
      capM := rfl
      srbuf := hempty
      stbuf := hempty
      errLegal := by decide
      oneRecord := .inl rfl
      busyEnabled := fun _ => rfl
      inFlight := fun _ => ⟨rfl, rfl⟩
      writeSla := by decide
      readSla := fun _ => slaByte_read_bit 0x68
      reading := by decide
      wantBound := by decide
      waiting := fun _ => ⟨rfl, by decide⟩
      waitWrite := by decide
      waitRead := by decide
      slaveRx := by decide
      slaveTx := by decide }

/-- Settles O54: the one byte wanted arrives as `MR_DATA_ACK`, which the latch still allows, and the read stays in MR with
nothing more to want. -/
theorem readBoundRestsOnAddressEvent : Obligations.ReadBoundRestsOnAddressEvent :=
  ⟨readJustStarted, _, 0x55, readJustStarted_inv, rfl, by decide, rfl, rfl, rfl, by decide⟩

end Sys2Proof.Machine
end

section
/-! PROOFS, 20_memory.md. Which instructions reach which buffer. -/

namespace Sys2Proof.Machine

section
variable {cls : EventClass} {d : Byte} {s t : State}

/-! ## What a command or an accepted event leaves of the three buffers (R27, R33) -/

/-- Commands reach the master buffer only. -/
theorem CommandEffect.slaveBuffers (hc : CommandEffect s t) : t.srbuf = s.srbuf ∧ t.stbuf = s.stbuf := by
  cases hc <;> exact ⟨rfl, rfl⟩

/-- A slave send moves the slave-transmit cursor and reaches neither other buffer. -/
theorem sendSlave_otherBuffers (hx : sendSlave s = .next t) : t.mbuf = s.mbuf ∧ t.srbuf = s.srbuf := by
  obtain ⟨a, tx, c, rfl⟩ := sendSlave_effect hx
  exact ⟨rfl, rfl⟩

/-- Apart from the reset and the stored byte of a slave receive, an event leaves the slave-receive buffer (R73, R74). -/
theorem EventEffect.srbuf_eq (he : EventEffect cls d s t) (haddr : cls ≠ .srSlaAck) (hdata : cls ≠ .srDataAck) :
    t.srbuf = s.srbuf := by
  cases he with
  | addressed hc => exact absurd hc haddr
  | received hc => exact absurd hc hdata
  | answered _ _ _ ht => simpa using (sendSlave_otherBuffers ht).2
  | sentSlave _ _ _ ht => exact (sendSlave_otherBuffers ht).2
  | _ => rfl

/-- Apart from the two slave sends, an event leaves the slave-transmit buffer (R77, R78). -/
theorem EventEffect.stbuf_eq (he : EventEffect cls d s t) (haddr : cls ≠ .stSlaAck) (hdata : cls ≠ .stDataAck) :
    t.stbuf = s.stbuf := by
  cases he with
  | answered _ hc => exact absurd hc haddr
  | sentSlave _ hc => exact absurd hc hdata
  | _ => rfl

/-- An event that sends from the master buffer is accepted in MT only, one that stores into it in MR only (R62, R67,
R68). -/
theorem EventEffect.mbuf_eq (he : EventEffect cls d s t) (hmt : s.state ≠ .mt) (hmr : s.state ≠ .mr) :
    t.mbuf = s.mbuf := by
  cases he with
  | sent _ hs => exact absurd hs hmt
  | stored _ hs => exact absurd hs hmr
  | storedLast _ hs => exact absurd hs hmr
  | answered _ _ _ ht => simpa using (sendSlave_otherBuffers ht).1
  | sentSlave _ _ _ ht => exact (sendSlave_otherBuffers ht).1
  | _ => rfl

end

/-- Settles O51: a command leaves both slave buffers, and an event raises a fault, which writes no buffer, or has its
effect, which reaches only the buffer of its own role. -/
theorem buffersAreKeptApart : Obligations.BuffersAreKeptApart := by
  intro i s t hx
  cases hi : isCommand i with
  | true =>
    obtain ⟨hsr, hst⟩ := (command_cases hi hx).slaveBuffers
    exact ⟨fun _ _ => hsr, fun _ _ => hst, by simp⟩
  | false =>
    obtain ⟨cls, d, rfl⟩ := event_of_not_command hi
    rcases event_cases hx with ⟨r, rfl⟩ | ⟨_, _, he⟩
    · exact ⟨fun _ _ => rfl, fun _ _ => rfl, fun _ _ _ => rfl⟩
    · refine ⟨fun hdata haddr => ?_, fun haddr hdata => ?_, fun hmt hmr _ => he.mbuf_eq hmt hmr⟩
      · exact he.srbuf_eq (by rintro rfl; exact haddr rfl) (by rintro rfl; exact hdata d rfl)
      · exact he.stbuf_eq (by rintro rfl; exact haddr rfl) (by rintro rfl; exact hdata rfl)

end Sys2Proof.Machine
end

section
/-! PROOFS, 30_encoding.md. Decoder and encoder are inverse on command words: a row of the command table matches a word
exactly when the word is the encoding of the row's command with the word's own operands. Then the legality of words, the
status map, the codes, and the steps that meet an illegal word, an unmapped code or an unexpected event. -/

namespace Sys2Proof.Machine

/-! ## The rows of the command table (R38) -/

/-- A word equals a pattern under a mask exactly when it is the pattern with the word's own unmasked bits. -/
theorem and_mask_eq_iff {n : Nat} {c m p : BitVec n} (hp : p &&& m = p) : c &&& m = p ↔ c = p ||| (c &&& ~~~m) := by
  constructor
  · rintro rfl
    rw [← BitVec.and_or_distrib_left]
    simp
  · intro h
    rw [h, BitVec.and_or_distrib_right, hp, BitVec.and_assoc]
    simp

theorem commandTable_pattern_masked : ∀ r ∈ commandTable, r.pattern &&& r.mask = r.pattern := by decide

/-- The patterns of two rows differ in a bit that both masks read. -/
theorem commandTable_disjoint : ∀ r ∈ commandTable, ∀ r' ∈ commandTable,
    r.pattern &&& r'.mask = r'.pattern &&& r.mask → r = r' := by decide

/-- The bits of a packed word, field by field (R37). -/
theorem packCommand_getLsbD (op : BitVec 4) (w : Bool) (addr : BusAddr) (imm : Byte) (i : Nat) :
    (packCommand op w addr imm).getLsbD i =
      if i < 8 then imm.getLsbD i else if i < 15 then addr.getLsbD (i - 8) else if i < 19 then false
      else if i < 20 then w else op.getLsbD (i - 20) := by
  change (op ++ BitVec.ofBool w ++ 0#4 ++ addr ++ imm : BitVec (4 + 1 + 4 + 7 + 8)).getLsbD i = _
  simp only [BitVec.getLsbD_append, BitVec.getLsbD_ofBool, BitVec.getLsbD_zero]
  grind

@[simp] theorem packCommand_waitFlag (op : BitVec 4) (w : Bool) (addr : BusAddr) (imm : Byte) :
    CommandWord.waitFlag (packCommand op w addr imm) = w :=
  packCommand_getLsbD op w addr imm 19

/-- The bits a row's mask leaves free are the operands of its command: the encoding of the command with the operands of
`c` is the row's pattern with those bits of `c`. -/
theorem encode_row {r : CommandRow} (hr : r ∈ commandTable) (c : CommandWord) :
    encode (r.op.instr c) = .command (r.pattern ||| (c &&& ~~~r.mask)) := by
  simp only [commandTable, List.mem_cons, List.not_mem_nil, or_false] at hr
  rcases hr with rfl | rfl | rfl | rfl | rfl | rfl | rfl
  all_goals
    refine congrArg PortWord.command (BitVec.eq_of_getLsbD_eq fun i hi => ?_)
    refine (packCommand_getLsbD ..).trans ?_
    interval_cases i <;> simp [CommandWord.addr, CommandWord.imm, CommandWord.waitFlag]

/-- A row matches a word exactly when the word encodes the row's command with the operands of the word. -/
theorem row_matches_iff {r : CommandRow} (hr : r ∈ commandTable) {c : CommandWord} :
    c &&& r.mask = r.pattern ↔ encode (r.op.instr c) = .command c := by
  rw [and_mask_eq_iff (commandTable_pattern_masked r hr), encode_row hr, PortWord.command.injEq, eq_comm]

/-- Two rows that match one word are the same row. -/
theorem row_unique {r r' : CommandRow} (hr : r ∈ commandTable) (hr' : r' ∈ commandTable) {c : CommandWord}
    (h : c &&& r.mask = r.pattern) (h' : c &&& r'.mask = r'.pattern) : r = r' := by
  apply commandTable_disjoint r hr r' hr'
  rw [← h, ← h', BitVec.and_assoc, BitVec.and_assoc, BitVec.and_comm r.mask]

/-- Whichever row matches a word, the word decodes to its command. -/
theorem decodeCommand_of_matches {r : CommandRow} (hr : r ∈ commandTable) {c : CommandWord}
    (h : c &&& r.mask = r.pattern) : decodeCommand c = .ok (r.op.instr c) := by
  have hfind : commandTable.find? (fun r => c &&& r.mask == r.pattern) = some r := by
    cases hf : commandTable.find? (fun r => c &&& r.mask == r.pattern) with
    | none => exact absurd (by simpa using h) (List.find?_eq_none.mp hf r hr)
    | some r' =>
      have hm : c &&& r'.mask = r'.pattern := by simpa using List.find?_some hf
      rw [row_unique hr (List.mem_of_find?_eq_some hf) h hm]
  simp only [decodeCommand, hfind]

/-! ## Decoder and encoder -/

/-- An instruction put on the command port is the command of some row with the operands of its own word. -/
theorem row_of_encode {i : Instr} {c : CommandWord} (h : encode i = .command c) :
    ∃ r ∈ commandTable, i = r.op.instr c := by
  have hop : ∃ op, i = CommandOp.instr c op := by
    cases i <;> cases h
    case startBus => exact ⟨.startBus, rfl⟩
    case beginWrite addr => exact ⟨.beginWrite, by simp [CommandOp.instr, beginWriteWord]⟩
    case queueByte b => exact ⟨.queueByte, by simp [CommandOp.instr, queueByteWord]⟩
    case endWrite wait => exact ⟨.endWrite, by simp [CommandOp.instr, endWriteWord]⟩
    case requestRead addr n => exact ⟨.requestRead, by simp [CommandOp.instr, requestReadWord]⟩
    case available => exact ⟨.available, rfl⟩
    case nextByte => exact ⟨.nextByte, rfl⟩
  obtain ⟨op, rfl⟩ := hop
  have hrow : ∃ r ∈ commandTable, r.op = op := by cases op <;> decide
  obtain ⟨r, hr, rfl⟩ := hrow
  exact ⟨r, hr, rfl⟩

/-- A command word decodes to `i` exactly when it is the encoding of `i`. -/
theorem decodeCommand_ok_iff {c : CommandWord} {i : Instr} : decodeCommand c = .ok i ↔ encode i = .command c := by
  constructor
  · intro h
    obtain ⟨r, hr, hm, rfl⟩ := decodeCommand_ok h
    exact (row_matches_iff hr).mp hm
  · intro h
    obtain ⟨r, hr, rfl⟩ := row_of_encode h
    exact decodeCommand_of_matches hr ((row_matches_iff hr).mpr h)

/-- The code of a class is mapped to the class (R44). -/
theorem statusClass_code (cls : EventClass) : statusClass defaultStatusMap cls.code = some cls := by
  cases cls <;> rfl

/-- An event is encoded by the code of its class and a byte that gives the event back. -/
theorem encode_event (cls : EventClass) (d : Byte) :
    ∃ d', encode (cls.instr d) = .event ⟨cls.code, d'⟩ ∧ cls.instr d' = cls.instr d := by
  cases cls <;> exact ⟨_, rfl, rfl⟩

/-- Settles O6: a command's word is matched by its own row and by no other, and an event's code by its own class. -/
theorem decodeOfEncodeIsInstruction : Obligations.DecodeOfEncodeIsInstruction := by
  intro i
  cases he : encode i with
  | command c => exact decodeCommand_ok_iff.mpr he
  | event e =>
    obtain ⟨cls, d, rfl⟩ := event_of_not_command (i := i) (by simp [isCommand, he])
    obtain ⟨d', henc, hinstr⟩ := encode_event cls d
    rw [← he, henc]
    simp only [decode, decodeEvent, statusClass_code, hinstr]

/-- Settles O7: the one direction of the equivalence of decoding and encoding on command words. -/
theorem encodeOfDecodedCommandIsWord : Obligations.EncodeOfDecodedCommandIsWord :=
  fun _ _ => decodeCommand_ok_iff.mp

/-! ## Words legal by their fields (R37, R39) -/

/-- What the encoder puts on the command port is legal by its fields. -/
theorem commandWf_of_encode {i : Instr} {c : CommandWord} (h : encode i = .command c) : commandWf c = true := by
  have hlegal : Laws.EncodeLegal.Statement i := by
    cases i <;> cases h
    case startBus => exact Laws.EncodeLegal.startBus
    case beginWrite addr => exact Laws.EncodeLegal.beginWrite addr
    case queueByte b => exact Laws.EncodeLegal.queueByte b
    case endWrite wait => exact Laws.EncodeLegal.endWrite wait
    case requestRead addr n => exact Laws.EncodeLegal.requestRead addr n
    case available => exact Laws.EncodeLegal.available
    case nextByte => exact Laws.EncodeLegal.nextByte
  simpa only [Laws.EncodeLegal.Statement, h] using hlegal

/-- A word with `RSV` = 0 is packed from its other four fields. -/
theorem exists_packCommand {c : CommandWord} (hrsv : wordField c 15 4 = 0) :
    ∃ op w addr imm, c = packCommand op w addr imm := by
  refine ⟨BitVec.ofNat 4 (wordField c 20 4), decide (wordField c 19 1 = 1), BitVec.ofNat 7 (wordField c 8 7),
    BitVec.ofNat 8 (wordField c 0 8), BitVec.eq_of_toNat_eq ?_⟩
  have hw : (decide (wordField c 19 1 = 1)).toNat = wordField c 19 1 := by
    have hlt : wordField c 19 1 < 2 := Nat.mod_lt _ (by decide)
    interval_cases wordField c 19 1 <;> rfl
  rw [packCommand_toNat, hw]
  simp only [BitVec.toNat_ofNat]
  unfold wordField at *
  omega

/-- The field check of R39 on a packed word: which operands an opcode admits. -/
theorem commandWf_packCommand {op : BitVec 4} {w : Bool} {addr : BusAddr} {imm : Byte} :
    commandWf (packCommand op w addr imm) = true ↔
      (1 ≤ op.toNat ∧ op.toNat ≤ 7) ∧ (w = false ∨ op = 4) ∧ (addr = 0 ∨ op = 2 ∨ op = 5) ∧
        (imm = 0 ∨ op = 3 ∨ op = 5) := by
  unfold commandWf
  rw [wordField_pack_op, wordField_pack_rsv, wordField_pack_wait, wordField_pack_addr, wordField_pack_imm]
  simp [← BitVec.toNat_inj, and_assoc, or_assoc]

/-- A word legal by its fields is the encoding of the command its opcode names, since the fields that opcode does not use
are 0. -/
theorem encode_of_commandWf {c : CommandWord} (h : commandWf c = true) : ∃ i, encode i = .command c := by
  have hrsv : wordField c 15 4 = 0 := by
    simp only [commandWf, Bool.and_eq_true, beq_iff_eq] at h
    obtain ⟨⟨⟨⟨_, hrsv⟩, _⟩, _⟩, _⟩ := h
    exact hrsv
  obtain ⟨op, w, addr, imm, rfl⟩ := exists_packCommand hrsv
  obtain ⟨hop, hw, ha, hi⟩ := commandWf_packCommand.mp h
  have hops : ∀ op : BitVec 4, 1 ≤ op.toNat ∧ op.toNat ≤ 7 →
      op = 1 ∨ op = 2 ∨ op = 3 ∨ op = 4 ∨ op = 5 ∨ op = 6 ∨ op = 7 := by decide
  rcases hops op hop with rfl | rfl | rfl | rfl | rfl | rfl | rfl
  all_goals
    simp only [BitVec.ofNat_eq_ofNat, BitVec.reduceEq, or_false, or_true] at hw ha hi
    subst_vars
  · exact ⟨.startBus, rfl⟩
  · exact ⟨.beginWrite addr, rfl⟩
  · exact ⟨.queueByte imm, rfl⟩
  · exact ⟨.endWrite w, rfl⟩
  · exact ⟨.requestRead addr imm, rfl⟩
  · exact ⟨.available, rfl⟩
  · exact ⟨.nextByte, rfl⟩

/-- Settles O8: the words that decode are the words the encoder makes, and these are the words legal by their fields. -/
theorem decodedWordsAreLegalByFields : Obligations.DecodedWordsAreLegalByFields := by
  intro c
  simp only [decodeCommand_ok_iff]
  exact ⟨fun ⟨_, h⟩ => commandWf_of_encode h, encode_of_commandWf⟩

/-- FG's turn on a word that is not legal by its fields raises `IllegalCommand` (R39). -/
theorem fgTurn_illegal {s : State} {c : CommandWord} (hp : s.fgPhase = .idle) (hc : s.program[s.fpc]? = some c)
    (hwf : commandWf c = false) : fgTurn s = raise (.illegalCommand c) s := by
  rcases fgTurn_cases s with ⟨_, hn, _⟩ | ⟨c', i, _, hc', hd, _⟩ | ⟨c', _, hc', hf⟩ | ⟨hne, _⟩
  · simp [hc] at hn
  · obtain rfl : c' = c := by simpa [hc, eq_comm] using hc'
    simp [(decodedWordsAreLegalByFields c').mp ⟨i, hd⟩] at hwf
  · obtain rfl : c' = c := by simpa [hc, eq_comm] using hc'
    exact hf
  · exact absurd hp hne

/-- Settles O9: a draw of the turn writes none of the fields FG's turn reads. -/
theorem illegalWordRaisesFault : Obligations.IllegalWordRaisesFault := by
  intro s c hs ha hp hc hwf
  rw [step_fg hs ha]
  exact fgTurn_illegal (by simpa using hp) (by simpa using hc) hwf

/-! ## The status map (R44, R45) -/

/-- The bits `s[7:3]`, as the mask of R44 reads them. -/
theorem and_mask_high (s : Byte) : s &&& 0xF8 = BitVec.ofNat 8 (s.toNat / 8 * 8) := by
  revert s; decide

/-- The default map reads `s[7:3]` only: every row has the mask of these bits. -/
theorem statusClass_default (s : Byte) :
    statusClass defaultStatusMap s = statusClass defaultStatusMap (BitVec.ofNat 8 (s.toNat / 8 * 8)) := by
  have hmask : ∀ r ∈ defaultStatusMap, r.mask = 0xF8 := by decide
  unfold statusClass
  rw [List.find?_congr fun r hr => ?_]
  rw [hmask r hr, ← and_mask_high, BitVec.and_assoc, BitVec.and_self]

/-- Settles O10: the class depends on the 32 values of `s[7:3]` alone, and each is looked up. -/
theorem defaultStatusMapIsTable : Obligations.DefaultStatusMapIsTable := by
  intro s
  rw [statusClass_default]
  have hq : s.toNat / 8 < 32 := by omega
  generalize s.toNat / 8 = q at hq
  interval_cases q <;> rfl

/-- PERIPH's turn on an event without a class is refused with its code (R45). -/
theorem periphTurn_unmapped {s : State} {e : BusEvent} {rest : List BusEvent} (he : s.enabled = true)
    (hev : s.events = e :: rest) (hm : statusClass s.statusMap e.status = none) :
    periphTurn s = refuse (.unknownStatus e.status) { s with events := rest } := by
  simp [periphTurn, he, hev, decodeEvent, hm]

/-- Settles O11: a draw of the turn writes none of the fields PERIPH's turn reads. -/
theorem unmappedStatusIsRefused : Obligations.UnmappedStatusIsRefused := by
  intro s e rest hs ha he hev hm
  rw [step_periph hs ha]
  exact periphTurn_unmapped (s := s.drawTurn.2) (by simpa using he) (by simpa using hev) (by simpa using hm)

/-! ## Words and codes written out -/

/-- Settles O12: the decoder is run on each of the nine words. -/
theorem sampleWordsDecode : Obligations.SampleWordsDecode := by
  unfold Obligations.SampleWordsDecode
  decide

/-- Settles O13: the bounds hold constructor by constructor. -/
theorem stateAndErrorCodes : Obligations.StateAndErrorCodes := by
  refine ⟨⟨rfl, rfl, rfl, rfl, rfl, fun b => ?_⟩, ⟨rfl, rfl, rfl, rfl, rfl, rfl, fun e => ?_⟩⟩
  · cases b <;> decide
  · cases e <;> decide

/-- The shifted address leaves bit 0 to the direction (R50). -/
theorem slaByte_append (addr : BusAddr) (read : Bool) : slaByte addr read = addr ++ BitVec.ofBool read := by
  revert addr read; decide

/-- Settles O14: the number follows from the layout. -/
theorem slaByteIsAddressThenDirection : Obligations.SlaByteIsAddressThenDirection := by
  intro addr read
  refine ⟨slaByte_append addr read, ?_⟩
  rw [slaByte_append, append_toNat, BitVec.toNat_ofBool]
  omega

/-! ## Events outside their accepted states (R43) -/

/-- Settles O31: each group of classes is accepted in the states the statement excludes and in no other. -/
theorem unexpectedEventRaisesFault : Obligations.UnexpectedEventRaisesFault := by
  intro s d cls h
  have hout : s.state ∉ acceptedIn cls := by
    rcases h with ⟨hc, hmt, hmr⟩ | ⟨hc, hs⟩ | ⟨hc, hs⟩ | ⟨hc, hs⟩ | ⟨hc, hs⟩ | ⟨hc, hs⟩
    · fin_cases hc <;> simp [acceptedIn, hmt, hmr]
    all_goals fin_cases hc <;> simp [acceptedIn, hs]
  rw [exec_event, dispatch_unexpected hout, raise]

end Sys2Proof.Machine
end

section
/-! PROOFS, 40_byte_buffers.md. What the buffer primitives do (R52 to R56), and that no instruction reads a byte at or
past the `len` of a buffer (R54, R113): every primitive takes buffers that hold the same bytes to buffers that do, and
so does every meaning built from them. -/

namespace Sys2Proof.Machine

/-! ## The primitives (R52 to R56) -/

/-- `BufWrite` is R52's append, with and without room. -/
theorem Buf.bufWrite_appended (B : Buf) (b : Byte) : B.Appended b (B.bufWrite b).1 := by
  unfold Buf.Appended
  split
  · next hroom =>
    rw [Buf.bufWrite_room b hroom]
    exact ⟨rfl, rfl, rfl, Memory.read_write_same .., fun _ hne => Memory.read_write_other _ b hne⟩
  · next hfull => rw [Buf.bufWrite_full b hfull]

/-- The answer `full` of `BufWrite` (R52). -/
theorem Buf.bufWrite_full_iff (B : Buf) (b : Byte) : (B.bufWrite b).2 = true ↔ ¬ B.len < B.cap := by
  by_cases hroom : B.len < B.cap
  · simp [Buf.bufWrite_room b hroom, hroom]
  · simp [Buf.bufWrite_full b hroom, hroom]

/-- Settles O21: the two clauses of `BufWrite`. -/
theorem bufWriteAppendsOrDrops : Obligations.BufWriteAppendsOrDrops :=
  fun B b => ⟨B.bufWrite_appended b, B.bufWrite_full_iff b⟩

/-- Settles O22: the two clauses of `BufRead`. -/
theorem bufReadAdvancesOrAnswersZero : Obligations.BufReadAdvancesOrAnswersZero :=
  fun _ => ⟨fun _ hlt hb => Buf.bufRead_next hlt hb, fun hend => Buf.bufRead_sentinel (Nat.not_lt.mpr hend)⟩

/-- `BufWrite` raises `len` below the capacity only, and never the cursor (R56). -/
theorem Buf.bufWrite_bounds {B : Buf} (b : Byte) (hcur : B.cur ≤ B.len) (hlen : B.len ≤ B.cap) :
    (B.bufWrite b).1.cur ≤ (B.bufWrite b).1.len ∧ (B.bufWrite b).1.len ≤ (B.bufWrite b).1.cap := by
  rw [Buf.bufWrite_cur, Buf.bufWrite_cap, Buf.bufWrite_len]
  split <;> omega

/-- `BufRead` raises the cursor below `len` only (R56). -/
theorem Buf.bufRead_bounds {B B' : Buf} {b : Byte} (hcur : B.cur ≤ B.len) (hlen : B.len ≤ B.cap)
    (h : B.bufRead = some (b, B')) : B'.cur ≤ B'.len ∧ B'.len ≤ B'.cap := by
  rcases Buf.bufRead_cases h with ⟨hlt, _, rfl⟩ | ⟨_, _, rfl⟩
  · exact ⟨hlt, hlen⟩
  · exact ⟨hcur, hlen⟩

/-- Settles O23: `BufWrite` and `BufRead` keep the bounds; the two resets write only 0, which is within any bounds. -/
theorem bufferPrimitivesKeepBounds : Obligations.BufferPrimitivesKeepBounds :=
  fun B hcur hlen =>
    ⟨fun b => Buf.bufWrite_bounds b hcur hlen, fun _ _ h => Buf.bufRead_bounds hcur hlen h, ⟨rfl, rfl, rfl, rfl⟩,
      (Nat.sub_le B.len B.cur).trans hlen, Nat.zero_le _, hlen⟩

/-! ## The primitives on buffers that hold the same bytes (R54) -/

namespace Buf.SameHeld

variable {B C : Buf}

theorem bufReset (h : B.SameHeld C) : B.bufReset.SameHeld C.bufReset :=
  { cap := h.cap, len := rfl, cur := rfl, held := by simp }

theorem withCur (h : B.SameHeld C) (c : Nat) : ({ B with cur := c } : Buf).SameHeld { C with cur := c } :=
  { h with cur := rfl }

theorem bufWrite_snd (h : B.SameHeld C) (b : Byte) : (C.bufWrite b).2 = (B.bufWrite b).2 := by
  rw [Bool.eq_iff_iff, Buf.bufWrite_full_iff, Buf.bufWrite_full_iff, h.len, h.cap]

/-- The byte that `BufWrite` adds to the held ones is the byte written, in both buffers. -/
theorem bufWrite (h : B.SameHeld C) (b : Byte) : (B.bufWrite b).1.SameHeld (C.bufWrite b).1 := by
  by_cases hroom : B.len < B.cap
  · rw [Buf.bufWrite_room b hroom, Buf.bufWrite_room b (by rwa [h.len, h.cap])]
    refine { cap := h.cap, len := congrArg (· + 1) h.len, cur := h.cur, held := fun i hi => ?_ }
    have hi : i < B.len + 1 := hi
    simp only [Memory.read_write, h.len]
    split
    · rfl
    · next hne => exact h.held i (by omega)
  · rwa [Buf.bufWrite_full b hroom, Buf.bufWrite_full b (by rwa [h.len, h.cap])]

theorem fill (h : B.SameHeld C) (L : List Byte) : (B.fill L).SameHeld (C.fill L) := by
  induction L generalizing B C with
  | nil => exact h
  | cons b L ih => exact ih (h.bufWrite b)

/-- The byte that `BufRead` returns is below `len`, and so held. -/
theorem bufRead (h : B.SameHeld C) {b : Byte} {B' : Buf} (hr : B.bufRead = some (b, B')) :
    ∃ C', C.bufRead = some (b, C') ∧ B'.SameHeld C' := by
  rcases Buf.bufRead_cases hr with ⟨hlt, hb, rfl⟩ | ⟨hend, rfl, rfl⟩
  · refine ⟨{ C with cur := B.cur + 1 }, ?_, h.withCur _⟩
    rw [Buf.bufRead_next (b := b) (by rwa [h.cur, h.len]) (by rw [h.cur, h.held _ hlt, hb]), h.cur]
  · exact ⟨C, Buf.bufRead_sentinel (by rwa [h.cur, h.len]), h⟩

theorem bufAvail_eq (h : B.SameHeld C) : C.bufAvail = B.bufAvail := by
  rw [Buf.bufAvail, Buf.bufAvail, h.len, h.cur]

theorem held_eq (h : B.SameHeld C) : C.held = B.held := by
  unfold Buf.held
  rw [h.len]
  exact Memory.readRange_congr fun i _ hi => h.held i (by omega)

end Buf.SameHeld

/-! ## Updates and meanings on states that hold the same bytes (R54, R113)

Of two such states the second is the first with other buffers. In that form the fields that are no buffer agree by
unfolding, in the states as in what an update makes of them. -/

/-- `s` with the buffers of `u`. -/
def State.withBufsOf (s u : State) : State := { s with mbuf := u.mbuf, srbuf := u.srbuf, stbuf := u.stbuf }

/-- The update takes states that hold the same bytes to states that do. -/
def KeepsHeld (f : State → State) : Prop :=
  ∀ s u : State, s.SameHeld (s.withBufsOf u) → (f s).SameHeld (f (s.withBufsOf u))

/-- A meaning that reads held bytes only: where it answers a next state, it does so in every state that holds the same
bytes, with a next state that does. -/
def ReadsHeldOnly (f : State → Host.Outcome State Fault Refusal) : Prop :=
  ∀ s u t : State, s.SameHeld (s.withBufsOf u) → f s = .next t →
    ∃ t', f (s.withBufsOf u) = .next t' ∧ t.SameHeld t'

theorem KeepsHeld.apply {f : State → State} (hf : KeepsHeld f) {s s' : State} (h : s.SameHeld s') :
    (f s).SameHeld (f s') := by
  have hrest : s' = s.withBufsOf s' := h.rest
  rw [hrest] at h ⊢
  exact hf s s' h

theorem ReadsHeldOnly.apply {f : State → Host.Outcome State Fault Refusal} (hf : ReadsHeldOnly f) {s s' t : State}
    (h : s.SameHeld s') (ht : f s = .next t) : ∃ t', f s' = .next t' ∧ t.SameHeld t' := by
  have hrest : s' = s.withBufsOf s' := h.rest
  rw [hrest] at h ⊢
  exact hf s s' t h ht

theorem KeepsHeld.comp {f g : State → State} (hg : KeepsHeld g) (hf : KeepsHeld f) : KeepsHeld fun s => g (f s) :=
  fun s u h => hg.apply (hf s u h)

namespace ReadsHeldOnly

variable {f g : State → Host.Outcome State Fault Refusal}

theorem comp {e : State → State} (hg : ReadsHeldOnly g) (he : KeepsHeld e) : ReadsHeldOnly fun s => g (e s) :=
  fun s u _ h ht => hg.apply (he s u h) ht

theorem next {e : State → State} (he : KeepsHeld e) : ReadsHeldOnly fun s => .next (e s) := by
  rintro s u _ h ⟨⟩
  exact ⟨_, rfl, he s u h⟩

theorem hold : ReadsHeldOnly Machine.hold := next fun _ _ h => h

/-- The record of a fault that no buffer has a part in. -/
theorem raise {r : State → FaultRecord} (hr : ∀ s u : State, r (s.withBufsOf u) = r s) :
    ReadsHeldOnly fun s => Machine.raise (r s) s :=
  next fun s u h => by rw [hr s u]; exact ⟨h.mbuf, h.srbuf, h.stbuf, rfl⟩

/-- A check that both states answer alike. -/
theorem ite {p : State → Prop} [DecidablePred p]
    (hp : ∀ s u : State, s.SameHeld (s.withBufsOf u) → (p (s.withBufsOf u) ↔ p s))
    (hf : ReadsHeldOnly f) (hg : ReadsHeldOnly g) : ReadsHeldOnly fun s => if p s then f s else g s := by
  intro s u t h ht
  simp only [hp s u h] at ht ⊢
  by_cases hps : p s
  · simp only [if_pos hps] at ht ⊢
    exact hf s u t h ht
  · simp only [if_neg hps] at ht ⊢
    exact hg s u t h ht

/-- Dispatch looks at the state and the latch only (R58). -/
theorem dispatch (cls : EventClass) (hf : ReadsHeldOnly f) : ReadsHeldOnly (Machine.dispatch cls f) := by
  intro s u t h ht
  rcases dispatch_cases cls f s with ⟨ha, hl, hd⟩ | ⟨ha, hd⟩ | ⟨ha, hl, hd⟩ <;> rw [hd] at ht
  · rw [dispatch_runs (s := s.withBufsOf u) ha hl]
    exact hf s u t h ht
  · rw [raise_next.mp ht]
    exact ⟨_, dispatch_unexpected (s := s.withBufsOf u) ha, h.mbuf, h.srbuf, h.stbuf, rfl⟩
  · rw [raise_next.mp ht]
    have hne : (s.withBufsOf u).ackEn ≠ !s.ackEn := Bool.self_ne_not s.ackEn
    exact ⟨_, dispatch_mismatch (s := s.withBufsOf u) ha hl hne, h.mbuf, h.srbuf, h.stbuf, rfl⟩

/-- A read of the next byte of the master buffer, then an update that puts the byte to use. -/
theorem readMaster {e : Byte → State → State} (he : ∀ b, KeepsHeld (e b)) : ReadsHeldOnly fun s =>
    match s.mbuf.bufRead with
    | some (b, B) => .next (e b { s with mbuf := B })
    | none => .fault (.unsetByte .master) := by
  intro s u t h ht
  beta_reduce at ht ⊢
  split at ht
  · next b B hB =>
    obtain ⟨C, hC, hBC⟩ := h.mbuf.bufRead hB
    have hread : { s with mbuf := B }.SameHeld { s.withBufsOf u with mbuf := C } := ⟨hBC, h.srbuf, h.stbuf, rfl⟩
    cases ht
    simp only [hC]
    exact ⟨_, rfl, (he b).apply hread⟩
  · cases ht

end ReadsHeldOnly

/-! ## The commands -/

theorem execStartBus_readsHeldOnly : ReadsHeldOnly execStartBus :=
  .ite (fun _ _ _ => .rfl) (.raise fun _ _ => rfl) (.next fun _ _ h => ⟨h.mbuf, h.srbuf, h.stbuf, rfl⟩)

theorem execBeginWrite_readsHeldOnly (addr : BusAddr) : ReadsHeldOnly (execBeginWrite addr) :=
  .ite (fun _ _ _ => .rfl) .hold (.next fun _ _ h => ⟨h.mbuf.bufReset, h.srbuf, h.stbuf, rfl⟩)

theorem execQueueByte_readsHeldOnly (b : Byte) : ReadsHeldOnly (execQueueByte b) :=
  .ite (fun _ _ _ => .rfl) (.raise fun _ _ => rfl)
    (.next fun _ _ h => ⟨h.mbuf.bufWrite b, h.srbuf, h.stbuf, by simp only [h.mbuf.bufWrite_snd]; rfl⟩)

theorem execEndWrite_readsHeldOnly (wait : Bool) : ReadsHeldOnly (execEndWrite wait) :=
  .ite (fun _ _ _ => .rfl) (.raise fun _ _ => rfl) <|
    .ite (fun _ _ _ => .rfl) (.raise fun _ _ => rfl) <|
      .ite (fun _ _ _ => .rfl) .hold <|
        .ite (fun _ _ _ => .rfl)
          (.next fun _ _ h => ⟨h.mbuf.withCur 0, h.srbuf, h.stbuf, rfl⟩)
          (.next fun _ _ h => ⟨h.mbuf.withCur 0, h.srbuf, h.stbuf, rfl⟩)

theorem execRequestRead_readsHeldOnly (addr : BusAddr) (n : Byte) : ReadsHeldOnly (execRequestRead addr n) :=
  .ite (fun _ _ _ => .rfl) (.raise fun _ _ => rfl) <|
    .ite (fun _ _ h => by rw [h.mbuf.cap]; rfl) (.raise fun _ _ => rfl) <|
      .ite (fun _ _ _ => .rfl) .hold <|
        .ite (fun _ _ h => by rw [h.mbuf.cap])
          (.next fun _ _ h => ⟨h.mbuf.bufReset, h.srbuf, h.stbuf, rfl⟩)
          (.next fun _ _ h => ⟨h.mbuf.bufReset, h.srbuf, h.stbuf, by simp only [h.mbuf.cap]; rfl⟩)

theorem execAvailable_readsHeldOnly : ReadsHeldOnly execAvailable :=
  .ite (fun _ _ _ => .rfl) (.raise fun _ _ => rfl)
    (.next fun _ _ h => ⟨h.mbuf, h.srbuf, h.stbuf, by simp only [h.mbuf.bufAvail_eq]; rfl⟩)

theorem respond_keepsHeld (v : Byte) : KeepsHeld (State.respond v) :=
  fun _ _ h => ⟨h.mbuf, h.srbuf, h.stbuf, rfl⟩

theorem execNextByte_readsHeldOnly : ReadsHeldOnly execNextByte :=
  .ite (fun _ _ _ => .rfl) (.raise fun _ _ => rfl) (.readMaster respond_keepsHeld)

/-! ## The events -/

theorem emit_keepsHeld (a : BusAct) (tx : Option Byte) : KeepsHeld (State.emit a tx) :=
  fun _ _ h => ⟨h.mbuf, h.srbuf, h.stbuf, rfl⟩

theorem finish_keepsHeld (a : BusAct) : KeepsHeld (State.finish a) :=
  fun _ _ h => ⟨h.mbuf, h.srbuf, h.stbuf, rfl⟩

theorem failWith_keepsHeld (e : TxnError) (a : BusAct) : KeepsHeld (State.failWith e a) :=
  fun _ _ h => ⟨h.mbuf, h.srbuf, h.stbuf, rfl⟩

theorem sendMaster_readsHeldOnly : ReadsHeldOnly sendMaster :=
  .ite (fun _ _ h => by rw [h.mbuf.cur, h.mbuf.len]) (.readMaster fun b => emit_keepsHeld .ack (some b))
    (.next (finish_keepsHeld .stop))

theorem sendSlave_readsHeldOnly : ReadsHeldOnly sendSlave := by
  intro s u t h ht
  unfold sendSlave at ht ⊢
  split at ht
  · next b B hB =>
    obtain ⟨C, hC, hBC⟩ := h.stbuf.bufRead hB
    cases ht
    simp only [hC, hBC.cur, hBC.len]
    exact ⟨_, rfl, h.mbuf, h.srbuf, hBC, rfl⟩
  · cases ht

theorem armRead_keepsHeld : KeepsHeld State.armRead :=
  fun _ _ h => ⟨h.mbuf, h.srbuf, h.stbuf, by simp only [State.armRead, h.mbuf.len]; rfl⟩

theorem armSlave_keepsHeld : KeepsHeld State.armSlave :=
  fun _ _ h => ⟨h.mbuf, h.srbuf, h.stbuf, by simp only [State.armSlave, h.srbuf.len, h.srbuf.cap]; rfl⟩

theorem storeMaster_keepsHeld (d : Byte) : KeepsHeld fun s => { s with mbuf := (s.mbuf.bufWrite d).1 } :=
  fun _ _ h => ⟨h.mbuf.bufWrite d, h.srbuf, h.stbuf, rfl⟩

theorem storeSlave_keepsHeld (d : Byte) : KeepsHeld fun s => { s with srbuf := (s.srbuf.bufWrite d).1 } :=
  fun _ _ h => ⟨h.mbuf, h.srbuf.bufWrite d, h.stbuf, rfl⟩

/-- The draw from the data source looks at no buffer (R77). -/
theorem drawReply_withBufsOf (s u : State) :
    (s.withBufsOf u).drawReply = (s.drawReply.1, s.drawReply.2.withBufsOf u) := by
  have htx : (s.withBufsOf u).txReplies = s.txReplies := rfl
  unfold State.drawReply
  rw [htx]
  cases s.txReplies <;> rfl

/-- What a slave transmit begins with: bytes of the data source in an empty buffer (R77). -/
theorem fillSlave_keepsHeld : KeepsHeld fun s =>
    { s.drawReply.2 with state := .st, stbuf := s.drawReply.2.stbuf.bufReset.fill s.drawReply.1 } := by
  intro s u h
  have hdrawn : s.drawReply.2.SameHeld (s.drawReply.2.withBufsOf u) :=
    ⟨by rw [s.drawReply_mbuf]; exact h.mbuf, by rw [s.drawReply_srbuf]; exact h.srbuf,
      by rw [s.drawReply_stbuf]; exact h.stbuf, rfl⟩
  simp only [drawReply_withBufsOf]
  exact ⟨hdrawn.mbuf, hdrawn.srbuf, hdrawn.stbuf.bufReset.fill _, rfl⟩

theorem eventRule_readsHeldOnly (cls : EventClass) (d : Byte) : ReadsHeldOnly (eventRule cls d) := by
  cases cls
  case busError => exact .next (failWith_keepsHeld _ _)
  case mtSlaNack => exact .next (failWith_keepsHeld _ _)
  case mtDataNack => exact .next (failWith_keepsHeld _ _)
  case arbLost => exact .next (failWith_keepsHeld _ _)
  case mrSlaNack => exact .next (failWith_keepsHeld _ _)
  case stDataNack => exact .next (finish_keepsHeld _)
  case stLastData => exact .next (finish_keepsHeld _)
  case srDataNack => exact .next (emit_keepsHeld _ _)
  case start => exact .next fun _ _ h => ⟨h.mbuf, h.srbuf, h.stbuf, rfl⟩
  case mtSlaAck => exact sendMaster_readsHeldOnly
  case mtDataAck => exact sendMaster_readsHeldOnly
  case mrSlaAck => exact .next armRead_keepsHeld
  case mrDataAck => exact .next (armRead_keepsHeld.comp (storeMaster_keepsHeld d))
  case mrDataNack => exact .next ((finish_keepsHeld _).comp (storeMaster_keepsHeld d))
  case srSlaAck => exact .next fun _ _ h => ⟨h.mbuf, h.srbuf.bufReset, h.stbuf, rfl⟩
  case srDataAck => exact .next (armSlave_keepsHeld.comp (storeSlave_keepsHeld d))
  case srStop =>
    intro s u t h ht
    simp only [eventRule, h.srbuf.held_eq] at ht ⊢
    split at ht
    · cases ht
      exact ⟨_, rfl, h.mbuf, h.srbuf, h.stbuf, rfl⟩
    · cases ht
  case stSlaAck => exact sendSlave_readsHeldOnly.comp fillSlave_keepsHeld
  case stDataAck => exact sendSlave_readsHeldOnly

/-! ## Every instruction -/

theorem exec_readsHeldOnly (i : Instr) : ReadsHeldOnly (exec i) := by
  cases hi : isCommand i with
  | true =>
    cases i
    case startBus => exact execStartBus_readsHeldOnly
    case beginWrite addr => exact execBeginWrite_readsHeldOnly addr
    case queueByte b => exact execQueueByte_readsHeldOnly b
    case endWrite wait => exact execEndWrite_readsHeldOnly wait
    case requestRead addr n => exact execRequestRead_readsHeldOnly addr n
    case available => exact execAvailable_readsHeldOnly
    case nextByte => exact execNextByte_readsHeldOnly
    all_goals simp [isCommand, encode] at hi
  | false =>
    obtain ⟨cls, d, rfl⟩ := event_of_not_command hi
    rw [funext (exec_event cls d)]
    exact .dispatch cls (eventRule_readsHeldOnly cls d)

/-- Settles O52: every meaning reads held bytes only. -/
theorem bytesPastLengthAreNeverRead : Obligations.BytesPastLengthAreNeverRead :=
  fun i _ _ _ h ht => (exec_readsHeldOnly i).apply h ht

end Sys2Proof.Machine
end

section
/-! PROOFS, 41_bus_master.md. The dispatch of events (R58 to R60), the events of a master transaction and the bus error
(R61 to R71), and whole master reads and writes. -/

namespace Sys2Proof.Machine

section
variable {cls : EventClass} {d : Byte} {s t : State} {a : Bool}

/-! ## An event at PERIPH's turn (R58) -/

/-- PERIPH's turn on an event with a class runs the event, which is consumed (log 3). -/
theorem periphTurn_event {e : BusEvent} {rest : List BusEvent} {i : Instr} (he : s.enabled = true)
    (hev : s.events = e :: rest) (hd : decodeEvent s.statusMap e = .ok i) :
    periphTurn s = exec i { s with events := rest } := by
  simp only [periphTurn, he, hev, hd, Bool.true_eq_false, if_false]

/-! ## The branches of dispatch, for the event of a class (R58, R60) -/

/-- An accepted event of a class that checks no latch runs its rule. -/
theorem exec_event_unlatched (ha : s.state ∈ acceptedIn cls) (hr : latchRequired cls = none) :
    exec (cls.instr d) s = eventRule cls d s := by
  rw [exec_event, dispatch_runs ha (by simp [hr])]

/-- An accepted event that agrees with the latch runs its rule. -/
theorem exec_event_latched (ha : s.state ∈ acceptedIn cls) (hr : latchRequired cls = some a) (hl : s.ackEn = a) :
    exec (cls.instr d) s = eventRule cls d s := by
  rw [exec_event, dispatch_runs ha (by simp [hr, hl])]

theorem exec_event_unexpected (ha : s.state ∉ acceptedIn cls) :
    exec (cls.instr d) s = .next { s with fault := some (.unexpectedEvent s.state cls) } := by
  rw [exec_event, dispatch_unexpected ha, raise]

theorem exec_event_mismatch {b : BusState} (hs : s.state = b) (ha : b ∈ acceptedIn cls)
    (hl : s.ackEn = a) (hr : latchRequired cls = some (!a)) :
    exec (cls.instr d) s = .next { s with fault := some (.ackMismatch b cls a) } := by
  subst hs hl
  rw [exec_event, dispatch_mismatch ha hr (by simp), raise]

/-- A rule records no fault: only the dispatch before it raises one. -/
theorem eventRule_fault (h : eventRule cls d s = .next t) : t.fault = s.fault := by
  cases cls <;> simp only [eventRule] at h
  case mtSlaAck | mtDataAck => rcases sendMaster_next h with ⟨b, _, _, rfl⟩ | ⟨_, rfl⟩ <;> rfl
  case srStop =>
    split at h
    · cases h; rfl
    · cases h
  case stSlaAck => obtain ⟨a, tx, c, rfl⟩ := sendSlave_effect h; simp
  case stDataAck => obtain ⟨a, tx, c, rfl⟩ := sendSlave_effect h; rfl
  all_goals cases h; rfl

/-- What an event that records a fault raised: it was not accepted, or it disagreed with the latch its class checks. -/
theorem exec_event_fault {r : FaultRecord} (hf : s.fault = none) (h : exec (cls.instr d) s = .next t)
    (ht : t.fault = some r) :
    r = .unexpectedEvent s.state cls ∨
      (latchRequired cls = some (!s.ackEn) ∧ r = .ackMismatch s.state cls s.ackEn) := by
  rw [exec_event] at h
  rcases dispatch_cases cls (eventRule cls d) s with ⟨_, _, he⟩ | ⟨_, he⟩ | ⟨_, hr, he⟩ <;> rw [he] at h
  · rw [eventRule_fault h, hf] at ht
    cases ht
  · rw [raise_next.mp h] at ht
    exact .inl (Option.some.inj ht).symm
  · rw [raise_next.mp h] at ht
    exact .inr ⟨hr, (Option.some.inj ht).symm⟩

/-! ## One bus action per event (R59) -/

theorem ackAfter_eq_false {act : BusAct} : ackAfter act = false ↔ act = .nack := by cases act <;> simp [ackAfter]

theorem sendSlave_emits (h : sendSlave s = .next t) :
    ∃ act tx, t.buslog = s.buslog ++ [(act, tx)] ∧ t.ackEn = ackAfter act := by
  obtain ⟨act, tx, c, rfl⟩ := sendSlave_effect h
  exact ⟨act, tx, State.emit_buslog .., rfl⟩

/-- An accepted event puts out one bus action, and the latch is what that action arms. -/
theorem EventEffect.emits (he : EventEffect cls d s t) :
    ∃ act tx, t.buslog = s.buslog ++ [(act, tx)] ∧ t.ackEn = ackAfter act := by
  cases he with
  | failed e act => exact ⟨act, none, State.failWith_buslog .., rfl⟩
  | finished act => exact ⟨act, none, State.finish_buslog .., rfl⟩
  | emitted act tx => exact ⟨act, tx, State.emit_buslog .., rfl⟩
  | sent b => exact ⟨.ack, some b, State.emit_buslog .., rfl⟩
  | stored => exact ⟨_, none, State.armRead_buslog _, rfl⟩
  | storedLast => exact ⟨.stop, none, State.finish_buslog .., rfl⟩
  | addressed => exact ⟨.ack, none, State.emit_buslog .., rfl⟩
  | received => exact ⟨_, none, State.armSlave_buslog _, rfl⟩
  | notified bytes =>
    exact ⟨.release, none, by rw [State.finish_buslog, State.notify_buslog], rfl⟩
  | answered _ _ _ ht =>
    obtain ⟨act, tx, hlog, hack⟩ := sendSlave_emits ht
    exact ⟨act, tx, hlog.trans (by simp [State.buslog]), hack⟩
  | sentSlave _ _ _ ht => exact sendSlave_emits ht

/-! ## The master's own updates (R62, R66) -/

/-- A master send with an unsent byte. -/
theorem sendMaster_unsent {b : Byte} (hlt : s.mbuf.cur < s.mbuf.len) (hb : s.mbuf.data.read s.mbuf.cur = some b) :
    sendMaster s = .next (State.emit .ack (some b) { s with mbuf := { s.mbuf with cur := s.mbuf.cur + 1 } }) := by
  simp only [sendMaster, if_pos hlt, Buf.bufRead_next hlt hb]

/-- A master send with every byte sent. -/
theorem sendMaster_done (hend : ¬ s.mbuf.cur < s.mbuf.len) : sendMaster s = .next (s.finish .stop) := by
  simp only [sendMaster, if_neg hend]

/-- Both acknowledges of a master transmit are the same send. -/
theorem exec_transmitAck {i : Instr} (hi : i = .mtSlaAck ∨ i = .mtDataAck) (hs : s.state = .mt) :
    exec i s = sendMaster s := by
  rcases hi with rfl | rfl
  · exact exec_event_unlatched (cls := .mtSlaAck) (d := 0) (by simp [acceptedIn, hs]) rfl
  · exact exec_event_unlatched (cls := .mtDataAck) (d := 0) (by simp [acceptedIn, hs]) rfl

/-- Arming writes the latch and puts out the action that arms it, and nothing else. -/
theorem State.armRead_eq (s : State) :
    s.armRead = { s with
      ackEn := decide (s.mbuf.len + 1 < s.mrWant)
      outlog := s.outlog ++ [.bus (if s.mbuf.len + 1 < s.mrWant then .ack else .nack) none] } := by
  by_cases h : s.mbuf.len + 1 < s.mrWant <;> simp [State.armRead, State.emit, armFor, ackAfter, h]

theorem exec_mrSlaAck (hs : s.state = .mr) : exec .mrSlaAck s = .next s.armRead :=
  exec_event_unlatched (cls := .mrSlaAck) (d := 0) (by simp [acceptedIn, hs]) rfl

theorem exec_mrDataAck (hs : s.state = .mr) (ha : s.ackEn = true) (d : Byte) :
    exec (.mrDataAck d) s = .next (State.armRead { s with mbuf := (s.mbuf.bufWrite d).1 }) :=
  exec_event_latched (cls := .mrDataAck) (by simp [acceptedIn, hs]) rfl ha

theorem exec_mrDataNack (hs : s.state = .mr) (ha : s.ackEn = false) (d : Byte) :
    exec (.mrDataNack d) s = .next (State.finish .stop { s with mbuf := (s.mbuf.bufWrite d).1 }) :=
  exec_event_latched (cls := .mrDataNack) (by simp [acceptedIn, hs]) rfl ha

/-- Arming a read below `mr_want` leaves it armed as R66 and R67 arm it. -/
theorem State.armRead_readArmed (hs : s.state = .mr) (hlt : s.mbuf.len < s.mrWant) : s.armRead.ReadArmed :=
  ⟨hs, hlt, by simp⟩

/-! ## Runs of several instructions -/

theorem execAll_cons {i : Instr} (rest : List Instr) (h : exec i s = .next t) :
    execAll (i :: rest) s = execAll rest t := by
  simp only [execAll, h]

/-- What a master read still does from a state that only has to be armed: each byte but the last is announced by ACK and
stored, the last by NACK, then stop (R66 to R68). The acknowledge for a byte is put out one event before the byte. -/
theorem execAll_armedRead (s : State) (bs old : List Byte) (last : Byte) (hs : s.state = .mr)
    (hwant : s.mrWant = s.mbuf.len + bs.length + 1) (hcap : s.mrWant ≤ s.mbuf.cap) (hheld : s.mbuf.held = some old) :
    ∃ t, execAll (bs.map Instr.mrDataAck ++ [.mrDataNack last]) s.armRead = .next t ∧
      t.state = .ready ∧ t.err = s.err ∧ t.mbuf.held = some (old ++ bs ++ [last]) ∧ t.mbuf.cur = s.mbuf.cur ∧
      t.buslog = s.buslog ++ (List.replicate bs.length (.ack, none) ++ [(.nack, none), (.stop, none)]) := by
  have hroom : s.mbuf.len < s.mbuf.cap := by omega
  induction bs generalizing s old with
  | nil =>
    have hlast : ¬ s.mbuf.len + 1 < s.mrWant := by simp [hwant]
    have hnack := exec_mrDataNack (s := s.armRead) hs (by simp [hlast]) last
    refine ⟨_, execAll_cons [] hnack, rfl, rfl, ?_, Buf.bufWrite_cur .., ?_⟩
    · simpa using Buf.bufWrite_held last hroom hheld
    · simp [State.buslog, hlast, armFor]
  | cons b bs ih =>
    simp only [List.length_cons] at hwant
    have hmore : s.mbuf.len + 1 < s.mrWant := by omega
    have hlen : (s.mbuf.bufWrite b).1.len = s.mbuf.len + 1 := by rw [Buf.bufWrite_len, if_pos hroom]
    have hack := exec_mrDataAck (s := s.armRead) hs (by simp [hmore]) b
    obtain ⟨t, hrun, hready, herr, hbytes, hcur, hlog⟩ :=
      ih { s.armRead with mbuf := (s.mbuf.bufWrite b).1 } (old ++ [b]) hs
        (by simp only [State.armRead_mrWant, hlen]; omega) (by simpa using hcap) (Buf.bufWrite_held b hroom hheld)
        (by simp only [hlen, Buf.bufWrite_cap]; omega)
    refine ⟨t, (execAll_cons _ hack).trans hrun, hready, herr, ?_, hcur.trans (Buf.bufWrite_cur ..), hlog.trans ?_⟩
    · simpa using hbytes
    · simp [State.buslog, hmore, armFor, List.replicate_succ]

/-- What a master write still does from a state in which the bytes `sent` are sent: either acknowledge sends the next of
`unsent`, and so on to the last, then stop (R62). -/
theorem execAll_transmit (s : State) (sent unsent : List Byte) {i : Instr} (hi : i = .mtSlaAck ∨ i = .mtDataAck)
    (hs : s.state = .mt) (hheld : s.mbuf.held = some (sent ++ unsent)) (hcur : s.mbuf.cur = sent.length) :
    ∃ t, execAll (i :: List.replicate unsent.length .mtDataAck) s = .next t ∧
      t.state = .ready ∧ t.err = s.err ∧ t.mbuf = { s.mbuf with cur := s.mbuf.len } ∧
      t.buslog = s.buslog ++ (unsent.map (fun b => (.ack, some b)) ++ [(.stop, none)]) := by
  induction unsent generalizing s sent i with
  | nil =>
    have hend : s.mbuf.cur = s.mbuf.len := by simpa [hcur] using (Buf.held_get hheld).1
    refine ⟨_, execAll_cons [] ((exec_transmitAck hi hs).trans (sendMaster_done hend.not_lt)), rfl, rfl, ?_,
      State.finish_buslog ..⟩
    rw [← hend]; rfl
  | cons b unsent ih =>
    obtain ⟨hlen, hget⟩ := Buf.held_get hheld
    have hlt : s.mbuf.cur < s.mbuf.len := by simp at hlen; omega
    have hb : s.mbuf.data.read s.mbuf.cur = some b := by rw [hget _ hlt, hcur]; simp
    obtain ⟨t, hrun, hready, herr, hbuf, hlog⟩ :=
      ih (State.emit .ack (some b) { s with mbuf := { s.mbuf with cur := s.mbuf.cur + 1 } }) (sent ++ [b])
        (.inr rfl) hs (by rw [List.append_assoc]; exact hheld) (by simp [hcur])
    refine ⟨t, (execAll_cons _ ((exec_transmitAck hi hs).trans (sendMaster_unsent hlt hb))).trans hrun, hready, herr,
      hbuf, hlog.trans ?_⟩
    simp [State.buslog]

end

/-! ## The dispatch of events -/

/-- Settles O17: a draw of the turn writes none of the fields PERIPH's turn reads. -/
theorem stepRunsDecodedEvent : Obligations.StepRunsDecodedEvent := by
  intro s e rest i hs ha he hev hd
  rw [step_periph hs ha]
  exact periphTurn_event (s := s.drawTurn.2) (by simpa using he) (by simpa using hev) (by simpa using hd)

/-- Only the six classes of R60 check the latch. -/
theorem mem_of_latchRequired {cls : EventClass} {a : Bool} (h : latchRequired cls = some a) :
    cls ∈ [EventClass.mrDataAck, .mrDataNack, .srDataAck, .srDataNack, .stDataAck, .stLastData] := by
  cases cls <;> simp [latchRequired] at h ⊢

/-- Settles O32: in each of the six cases the class is accepted and the latch is not the one it needs; a class that
checks no latch raises `UnexpectedEvent` or nothing. -/
theorem ackMismatchRaisesFault : Obligations.AckMismatchRaisesFault := by
  refine ⟨fun s d cls h => ?_, fun s t d cls hc hf hx was c a ht => ?_⟩
  · have hdisagrees : s.state ∈ acceptedIn cls ∧ latchRequired cls = some (!s.ackEn) := by
      simp only [List.mem_singleton] at h
      rcases h with ⟨rfl, hs, ha⟩ | ⟨rfl, hs, ha⟩ | ⟨rfl, hs, ha⟩ | ⟨rfl, hs, ha⟩ | ⟨rfl, hs, ha⟩ | ⟨rfl, hs, ha⟩ <;>
        simp [acceptedIn, latchRequired, hs, ha]
    exact exec_event_mismatch rfl hdisagrees.1 rfl hdisagrees.2
  · rcases exec_event_fault hf hx ht with h | ⟨hr, _⟩
    · cases h
    · exact hc (mem_of_latchRequired hr)

/-- Settles O33: an event that leaves no fault was accepted, and has its effect. -/
theorem everyEventEmitsOneAction : Obligations.EveryEventEmitsOneAction := by
  intro s t d cls _ hx ht
  rcases event_cases hx with ⟨r, rfl⟩ | ⟨_, _, he⟩
  · cases ht
  · obtain ⟨act, tx, hlog, hack⟩ := he.emits
    exact ⟨act, tx, hlog, by rw [hack, ackAfter_eq_false]⟩

/-! ## The master events -/

/-- Settles O34: START is accepted in the two master states only. -/
theorem startSendsAddressByte : Obligations.StartSendsAddressByte := by
  refine fun s => ⟨fun hs => ?_, fun hs => ?_⟩
  · exact exec_event_unlatched (cls := .start) (d := 0) (by simpa [acceptedIn] using hs) rfl
  · exact exec_event_unexpected (cls := .start) (d := 0) (by rcases hs with hs | hs | hs <;> simp [acceptedIn, hs])

/-- Settles O35: in MT both classes are the master send, and neither is accepted elsewhere. -/
theorem transmitAckSendsNextOrStops : Obligations.TransmitAckSendsNextOrStops := by
  intro s i cls h
  have hi : i = .mtSlaAck ∨ i = .mtDataAck := h.imp And.left And.left
  obtain ⟨rfl, hacc⟩ : i = cls.instr 0 ∧ acceptedIn cls = [.mt] := by
    rcases h with ⟨rfl, rfl⟩ | ⟨rfl, rfl⟩ <;> exact ⟨rfl, rfl⟩
  refine ⟨fun b hs hlt hb => ?_, fun hs hend => ?_, fun hs => ?_⟩
  · exact (exec_transmitAck hi hs).trans (sendMaster_unsent hlt hb)
  · exact (exec_transmitAck hi hs).trans (sendMaster_done (Nat.not_lt.mpr hend))
  · exact exec_event_unexpected (by simp [hacc, hs])

/-- Settles O36: each of the three classes is accepted in its role's state only, and its rule fails with its error. -/
theorem masterNackStopsWithError : Obligations.MasterNackStopsWithError := by
  intro s i cls role e h
  obtain ⟨rfl, hacc, hlatch, hrule⟩ :
      i = cls.instr 0 ∧ acceptedIn cls = [role] ∧ latchRequired cls = none ∧
        eventRule cls 0 s = .next (s.failWith e .stop) := by
    rcases h with ⟨rfl, rfl, rfl, rfl⟩ | ⟨rfl, rfl, rfl, rfl⟩ | ⟨rfl, rfl, rfl, rfl⟩ <;> exact ⟨rfl, rfl, rfl, rfl⟩
  refine ⟨fun hs => ?_, fun hs => ?_⟩
  · exact (exec_event_unlatched (by simp [hacc, hs]) hlatch).trans hrule
  · exact exec_event_unexpected (by simp [hacc, hs])

/-- Settles O37: ARB_LOST is accepted in the two master states only. -/
theorem arbitrationLossReleases : Obligations.ArbitrationLossReleases := by
  refine fun s => ⟨fun hs => ?_, fun hs => ?_⟩
  · exact exec_event_unlatched (cls := .arbLost) (d := 0) (by simpa [acceptedIn] using hs) rfl
  · exact exec_event_unexpected (cls := .arbLost) (d := 0) (by rcases hs with hs | hs | hs <;> simp [acceptedIn, hs])

/-- Settles O38: MR_SLA_ACK arms the read. -/
theorem readAddressAckArmsFirstByte : Obligations.ReadAddressAckArmsFirstByte := by
  refine fun s => ⟨fun hs => ?_, fun hs => ?_⟩
  · rw [exec_mrSlaAck hs, State.armRead_eq]
  · exact exec_event_unexpected (cls := .mrSlaAck) (d := 0) (by simp [acceptedIn, hs])

/-- Settles O39: the byte is stored by `BufWrite`, and the read is armed by the buffer it leaves. -/
theorem readDataAckStoresAndArms : Obligations.ReadDataAckStoresAndArms := by
  refine fun s d => ⟨fun hs ha => ?_, fun hs ha => ?_, fun hs => ?_⟩
  · exact ⟨_, exec_mrDataAck hs ha d, Buf.bufWrite_appended .., State.armRead_eq _⟩
  · exact exec_event_mismatch (cls := .mrDataAck) hs (by simp [acceptedIn]) ha rfl
  · exact exec_event_unexpected (cls := .mrDataAck) (by simp [acceptedIn, hs])

/-- Settles O40: the byte is stored by `BufWrite`, and the transaction ends. -/
theorem readDataNackStoresAndStops : Obligations.ReadDataNackStoresAndStops := by
  refine fun s d => ⟨fun hs ha => ?_, fun hs ha => ?_, fun hs => ?_⟩
  · exact ⟨_, exec_mrDataNack hs ha d, Buf.bufWrite_appended .., rfl⟩
  · exact exec_event_mismatch (cls := .mrDataNack) hs (by simp [acceptedIn]) ha rfl
  · exact exec_event_unexpected (cls := .mrDataNack) (by simp [acceptedIn, hs])

/-- Settles O41: the bus error is accepted in all five states. -/
theorem busErrorStopsInEveryState : Obligations.BusErrorStopsInEveryState :=
  fun s => exec_event_unlatched (cls := .busError) (d := 0) (by cases s.state <;> simp [acceptedIn]) rfl

/-! ## Whole transactions -/

/-- Settles O53: both events arm the read at the length they leave. A data event taken without a fault found the latch
at ACK, so at least one more byte was expected beside its own, and there was room to store it. -/
theorem readStaysArmed : Obligations.ReadStaysArmed := by
  refine ⟨fun s t hs hlt hx => ?_, fun s t d ⟨hs, hlt, harm⟩ hcap _ hx hf => ?_⟩
  · rw [exec_mrSlaAck hs] at hx
    cases hx
    exact State.armRead_readArmed hs hlt
  · rcases event_cases (cls := .mrDataAck) (d := d) hx with ⟨r, rfl⟩ | ⟨_, hl, _⟩
    · cases hf
    have hack : s.ackEn = true := hl true rfl
    have hmore : s.mbuf.len + 1 < s.mrWant := harm.mp hack
    have hlen : (s.mbuf.bufWrite d).1.len = s.mbuf.len + 1 := by rw [Buf.bufWrite_len, if_pos (by omega)]
    rw [exec_mrDataAck hs hack] at hx
    cases hx
    exact ⟨State.armRead_readArmed hs (by rw [hlen]; exact hmore), hlen⟩

/-- Settles O55: the address event arms the read, which then runs from an empty buffer. -/
theorem masterReadCapturesInOrder : Obligations.MasterReadCapturesInOrder := by
  intro s bs last hs hlen hwant hcap
  have hempty : s.mbuf.held = some [] := by rw [Buf.held, hlen, Memory.readRange_zero]
  rw [execAll_cons _ (exec_mrSlaAck hs)]
  exact execAll_armedRead s bs [] last hs (by omega) (by omega) hempty

/-- Settles O56: the write runs from a buffer of which nothing is sent. -/
theorem masterWriteSendsInOrder : Obligations.MasterWriteSendsInOrder := by
  intro s bs hs hcur hheld
  obtain ⟨t, hrun, hready, herr, hbuf, hlog⟩ := execAll_transmit s [] bs (.inl rfl) hs hheld hcur
  refine ⟨t, hrun, hready, herr, ?_, ?_, hlog⟩
  · rw [hbuf]; exact (Buf.held_get hheld).1.symm
  · rw [Buf.held_congr (B := s.mbuf) (by rw [hbuf]) (by rw [hbuf]), hheld]

end Sys2Proof.Machine
end

section
/-! PROOFS, 42_bus_slave.md. The events of a slave receive (R73 to R76) and of a slave transmit (R77 to R79), and whole
receives and transmits. -/

namespace Sys2Proof.Machine

section
variable {s t : State}

/-! ## The slave's own updates (R74, R77, R78) -/

/-- An armed action latches what it arms, and puts out nothing else. -/
theorem State.emit_armFor (s : State) (p : Prop) [Decidable p] (tx : Option Byte) :
    s.emit (armFor (decide p)) tx = { s with
      ackEn := decide p, outlog := s.outlog ++ [.bus (if p then .ack else .nack) tx] } := by
  by_cases h : p <;> simp [State.emit, armFor, ackAfter, h]

/-- A slave send with an unsent byte. -/
theorem sendSlave_unsent {b : Byte} (hlt : s.stbuf.cur < s.stbuf.len) (hb : s.stbuf.data.read s.stbuf.cur = some b) :
    sendSlave s = .next (State.emit (armFor (decide (s.stbuf.cur + 1 < s.stbuf.len))) (some b)
      { s with stbuf := { s.stbuf with cur := s.stbuf.cur + 1 } }) := by
  simp only [sendSlave, Buf.bufRead_next hlt hb]

/-- A slave send with every byte sent. -/
theorem sendSlave_sentinel (hend : ¬ s.stbuf.cur < s.stbuf.len) :
    sendSlave s = .next (s.emit .nack (some 0x00)) := by
  simp [sendSlave, Buf.bufRead_sentinel hend, hend, armFor]

/-- What a data source's answer leaves in the emptied buffer (R77). -/
theorem Buf.bufReset_fill_held (B : Buf) (L : List Byte) : (B.bufReset.fill L).held = some (L.take B.cap) :=
  Buf.fill_held (B := B.bufReset) L (Nat.zero_le _) rfl

theorem Buf.bufReset_fill_len (B : Buf) (L : List Byte) : (B.bufReset.fill L).len = min L.length B.cap := by
  rw [Buf.fill_len L (Nat.zero_le _), Buf.bufReset_len, Nat.zero_add, Buf.bufReset_cap]

theorem headD_take (L : List Byte) (n : Nat) (b : Byte) :
    (L.take n).headD b = if 0 < min L.length n then L.headD b else b := by
  cases L with
  | nil => simp
  | cons c L => cases n <;> simp

/-- The first send from a buffer of `n` bytes: its first byte, or the sentinel where it holds none. -/
theorem sendSlave_first {n : Nat} {bytes : List Byte} (hheld : s.stbuf.held = some bytes) (hlen : s.stbuf.len = n)
    (hcur : s.stbuf.cur = 0) :
    sendSlave s = .next { s with
      stbuf := { s.stbuf with cur := min 1 n }, ackEn := decide (1 < n)
      outlog := s.outlog ++ [.bus (if 1 < n then .ack else .nack) (some (bytes.headD 0x00))] } := by
  subst hlen
  obtain ⟨hlen, hget⟩ := Buf.held_get hheld
  cases bytes with
  | nil =>
    have hempty : s.stbuf.len = 0 := hlen.symm
    have hbuf : { s.stbuf with cur := 0 } = s.stbuf := by rw [← hcur]
    rw [sendSlave_sentinel (by omega), hempty, Nat.min_zero, hbuf]
    rfl
  | cons b bytes =>
    have hlt : 0 < s.stbuf.len := by rw [← hlen]; exact Nat.succ_pos _
    rw [sendSlave_unsent (by omega) (by rw [hcur, hget 0 hlt]; rfl), State.emit_armFor, hcur, Nat.min_eq_left hlt]
    rfl

/-! ## The slave events where they are accepted (R73 to R79) -/

theorem exec_srSlaAck (hs : s.state = .ready) :
    exec .srSlaAck s = .next (State.emit .ack none { s with state := .sr, srbuf := s.srbuf.bufReset }) :=
  exec_event_unlatched (cls := .srSlaAck) (d := 0) (by simp [acceptedIn, hs]) rfl

theorem exec_srDataAck (hs : s.state = .sr) (ha : s.ackEn = true) (d : Byte) :
    exec (.srDataAck d) s = .next (State.armSlave { s with srbuf := (s.srbuf.bufWrite d).1 }) :=
  exec_event_latched (cls := .srDataAck) (by simp [acceptedIn, hs]) rfl ha

theorem exec_srDataNack (hs : s.state = .sr) (ha : s.ackEn = false) (d : Byte) :
    exec (.srDataNack d) s = .next (s.emit .nack none) :=
  exec_event_latched (cls := .srDataNack) (d := d) (by simp [acceptedIn, hs]) rfl ha

theorem exec_srStop {bytes : List Byte} (hs : s.state = .sr) (hheld : s.srbuf.held = some bytes) :
    exec .srStop s = .next ((s.notify bytes).finish .release) := by
  refine (exec_event_unlatched (cls := .srStop) (d := 0) (by simp [acceptedIn, hs]) rfl).trans ?_
  simp only [eventRule, hheld]

/-- A slave transmit begins as a send from the filled buffer. -/
theorem exec_stSlaAck (hs : s.state = .ready) :
    exec .stSlaAck s =
      sendSlave { s.drawReply.2 with state := .st, stbuf := s.stbuf.bufReset.fill s.drawReply.1 } := by
  rw [← s.drawReply_stbuf]
  exact exec_event_unlatched (cls := .stSlaAck) (d := 0) (by simp [acceptedIn, hs]) rfl

theorem exec_stDataAck (hs : s.state = .st) (ha : s.ackEn = true) : exec .stDataAck s = sendSlave s :=
  exec_event_latched (cls := .stDataAck) (d := 0) (by simp [acceptedIn, hs]) rfl ha

theorem exec_stLastData (hs : s.state = .st) (ha : s.ackEn = false) :
    exec .stLastData s = .next (s.finish .release) :=
  exec_event_latched (cls := .stLastData) (d := 0) (by simp [acceptedIn, hs]) rfl ha

/-! ## A whole slave receive (R73 to R76) -/

/-- A program that runs through is followed by what comes after it. -/
theorem execAll_append {p : List Instr} (q : List Instr) (h : execAll p s = .next t) :
    execAll (p ++ q) s = execAll q t := by
  induction p generalizing s with
  | nil => cases h; rfl
  | cons i p ih =>
    simp only [List.cons_append, execAll] at h ⊢
    split at h
    · exact ih h
    · cases h
    · cases h

/-- `t` is inside a slave receive that began in `s`: after `n` events it holds the bytes `bs` and has armed the next one
by the room left. -/
structure State.Receiving (s : State) (n : Nat) (bs : List Byte) (t : State) : Prop where
  state     : t.state = .sr
  err       : t.err = s.err
  notifylog : t.notifylog = s.notifylog
  cap       : t.srbuf.cap = s.srbuf.cap
  held      : t.srbuf.held = some bs
  armed     : t.ackEn = decide (bs.length < s.srbuf.cap)
  buslog    : t.buslog.length = s.buslog.length + n

/-- The address event begins the receive with no byte held (R73). -/
theorem exec_srSlaAck_receiving (hs : s.state = .ready) (hcap : 1 ≤ s.srbuf.cap) :
    ∃ t, exec .srSlaAck s = .next t ∧ s.Receiving 1 [] t :=
  ⟨_, exec_srSlaAck hs,
    { state := rfl
      err := rfl
      notifylog := State.emit_notifylog ..
      cap := rfl
      held := rfl
      armed := (decide_eq_true hcap).symm
      buslog := by rw [State.emit_buslog]; exact List.length_append }⟩

variable {n : Nat} {old bs : List Byte}

/-- A byte that fits is stored after those held (R74). -/
theorem State.Receiving.store (h : s.Receiving n old t) (hroom : old.length < s.srbuf.cap) (d : Byte) :
    ∃ u, exec (.srDataAck d) t = .next u ∧ s.Receiving (n + 1) (old ++ [d]) u := by
  have hlen : t.srbuf.len = old.length := (Buf.held_get h.held).1.symm
  have hlt : t.srbuf.len < t.srbuf.cap := by rwa [hlen, h.cap]
  have harmed : t.ackEn = true := by rw [h.armed, decide_eq_true hroom]
  exact ⟨_, exec_srDataAck h.state harmed d,
    { state := h.state
      err := h.err
      notifylog := (State.emit_notifylog ..).trans h.notifylog
      cap := (Buf.bufWrite_cap ..).trans h.cap
      held := Buf.bufWrite_held d hlt h.held
      armed := by simp [Buf.bufWrite_len, hroom, hlen, h.cap]
      buslog := by simpa [State.buslog, ← Nat.add_assoc] using h.buslog }⟩

/-- A byte past a full buffer is discarded (R75). -/
theorem State.Receiving.discard (h : s.Receiving n old t) (hfull : old.length = s.srbuf.cap) (d : Byte) :
    ∃ u, exec (.srDataNack d) t = .next u ∧ s.Receiving (n + 1) old u := by
  have harmed : t.ackEn = false := by simp [h.armed, hfull]
  exact ⟨_, exec_srDataNack h.state harmed d,
    { state := h.state
      err := h.err
      notifylog := (State.emit_notifylog ..).trans h.notifylog
      cap := h.cap
      held := h.held
      armed := by simp [ackAfter, hfull]
      buslog := by simpa [← Nat.add_assoc] using h.buslog }⟩

theorem State.Receiving.storeAll (h : s.Receiving n old t) (hfits : old.length + bs.length ≤ s.srbuf.cap) :
    ∃ u, execAll (bs.map .srDataAck) t = .next u ∧ s.Receiving (n + bs.length) (old ++ bs) u := by
  induction bs generalizing n old t with
  | nil => exact ⟨t, rfl, by simpa using h⟩
  | cons b bs ih =>
    rw [List.length_cons] at hfits
    obtain ⟨u, hb, hu⟩ := h.store (by omega) b
    obtain ⟨v, hbs, hv⟩ := ih hu (by simp only [List.length_append, List.length_singleton]; omega)
    refine ⟨v, (execAll_cons _ hb).trans hbs, ?_⟩
    simpa [Nat.add_assoc, Nat.add_comm 1] using hv

theorem State.Receiving.discardAll (h : s.Receiving n old t) (hfull : bs = [] ∨ old.length = s.srbuf.cap) :
    ∃ u, execAll (bs.map .srDataNack) t = .next u ∧ s.Receiving (n + bs.length) old u := by
  induction bs generalizing n t with
  | nil => exact ⟨t, rfl, h⟩
  | cons b bs ih =>
    have hfull : old.length = s.srbuf.cap := by simpa using hfull
    obtain ⟨u, hb, hu⟩ := h.discard hfull b
    obtain ⟨v, hbs, hv⟩ := ih hu (.inr hfull)
    refine ⟨v, (execAll_cons _ hb).trans hbs, ?_⟩
    simpa [Nat.add_assoc, Nat.add_comm 1] using hv

/-! ## A whole slave transmit (R77 to R79) -/

/-- The byte at the cursor of a buffer whose held bytes are split there. -/
theorem Buf.held_at_cursor {B : Buf} {sent rest : List Byte} {b : Byte} (hheld : B.held = some (sent ++ b :: rest))
    (hcur : B.cur = sent.length) :
    B.cur < B.len ∧ B.data.read B.cur = some b ∧ (B.cur + 1 < B.len ↔ rest ≠ []) := by
  obtain ⟨hlen, hget⟩ := Buf.held_get hheld
  simp only [List.length_append, List.length_cons] at hlen
  have hlt : B.cur < B.len := by omega
  refine ⟨hlt, by rw [hget _ hlt, hcur]; simp, ?_⟩
  rw [← List.length_pos_iff]
  omega

/-- What a slave transmit still does, its next event `i` being a slave send from `t`, where the bytes `sent` are sent:
each byte but the last goes out with ACK, the last with NACK, then the bus is released. -/
theorem execAll_slaveTransmit {i : Instr} (hi : exec i s = sendSlave t) (sent unsent : List Byte) (last : Byte)
    (hs : t.state = .st) (hheld : t.stbuf.held = some (sent ++ (unsent ++ [last])))
    (hcur : t.stbuf.cur = sent.length) :
    ∃ u, execAll (i :: (List.replicate unsent.length .stDataAck ++ [.stLastData])) s = .next u ∧
      u.state = .ready ∧ u.err = t.err ∧ u.txReplies = t.txReplies ∧
      u.buslog = t.buslog ++
        (unsent.map (fun b => (.ack, some b)) ++ [(.nack, some last), (.release, none)]) := by
  induction unsent generalizing s t sent i with
  | nil =>
    obtain ⟨hlt, hb, hmore⟩ := Buf.held_at_cursor hheld hcur
    have hlast : ¬ t.stbuf.cur + 1 < t.stbuf.len := by simp [hmore]
    have hsend := hi.trans (sendSlave_unsent hlt hb)
    rw [decide_eq_false hlast] at hsend
    refine ⟨_, (execAll_cons _ hsend).trans (execAll_cons [] (exec_stLastData hs rfl)), rfl, rfl, rfl, ?_⟩
    simp [State.buslog, armFor]
  | cons b unsent ih =>
    obtain ⟨hlt, hb, hmore⟩ := Buf.held_at_cursor hheld hcur
    have hsend := hi.trans (sendSlave_unsent hlt hb)
    rw [decide_eq_true (hmore.mpr (by simp))] at hsend
    obtain ⟨u, hrun, hready, herr, htx, hlog⟩ :=
      ih (t := State.emit .ack (some b) { t with stbuf := { t.stbuf with cur := t.stbuf.cur + 1 } })
        (exec_stDataAck hs rfl) (sent ++ [b]) hs (by rw [List.append_assoc]; exact hheld) (by simp [hcur])
    refine ⟨u, (execAll_cons _ hsend).trans hrun, hready, herr, htx, hlog.trans ?_⟩
    simp [State.buslog]

end

/-! ## The slave events -/

/-- Settles O42: SR_SLA_ACK is accepted in READY only. -/
theorem slaveReceiveBegins : Obligations.SlaveReceiveBegins := by
  refine fun s => ⟨fun hs => ?_, fun hs => ?_⟩
  · exact exec_srSlaAck hs
  · exact exec_event_unexpected (cls := .srSlaAck) (d := 0) (by simp [acceptedIn, hs])

/-- Settles O43: the byte is stored by `BufWrite`, and the receive is armed by the room it leaves. -/
theorem slaveReceiveStoresAndArms : Obligations.SlaveReceiveStoresAndArms := by
  refine fun s d => ⟨fun hs ha => ?_, fun hs ha => ?_, fun hs => ?_⟩
  · refine ⟨_, exec_srDataAck hs ha d, Buf.bufWrite_appended .., ?_⟩
    rw [State.armSlave, State.emit_armFor]
    simp only [Buf.bufWrite_cap]
  · exact exec_event_mismatch (cls := .srDataAck) hs (by simp [acceptedIn]) ha rfl
  · exact exec_event_unexpected (cls := .srDataAck) (by simp [acceptedIn, hs])

/-- Settles O44: nothing but the negative acknowledge is put out, and the latch stays at it. -/
theorem slaveReceiveDiscardsWhenFull : Obligations.SlaveReceiveDiscardsWhenFull := by
  refine fun s d => ⟨fun hs ha => ?_, fun hs ha => ?_, fun hs => ?_⟩
  · exact exec_srDataNack hs ha d
  · exact exec_event_mismatch (cls := .srDataNack) (d := d) hs (by simp [acceptedIn]) ha rfl
  · exact exec_event_unexpected (cls := .srDataNack) (d := d) (by simp [acceptedIn, hs])

/-- Settles O45: the bytes notified are the held ones, all of which were written. -/
theorem slaveReceiveEndNotifiesThenReleases : Obligations.SlaveReceiveEndNotifiesThenReleases := by
  refine fun s => ⟨fun hs hwritten => ?_, fun hs => ?_⟩
  · obtain ⟨bytes, hheld, _⟩ : ∃ bytes, s.srbuf.held = some bytes ∧ bytes.length = s.srbuf.len :=
      Memory.readRange_isSome fun i _ hi => hwritten i (by omega)
    obtain ⟨hlen, hget⟩ := Buf.held_get hheld
    refine ⟨bytes, hlen, hget, ?_⟩
    rw [exec_srStop hs hheld]
    simp [State.finish, State.notify, State.emit, ackAfter]
  · exact exec_event_unexpected (cls := .srStop) (d := 0) (by simp [acceptedIn, hs])

/-- Settles O46: the buffer is filled from empty, and one slave send follows, of the first byte or of the sentinel. -/
theorem slaveTransmitBegins : Obligations.SlaveTransmitBegins := by
  refine fun s => ⟨fun hs => ?_, fun hs => ?_⟩
  · have hheld := s.stbuf.bufReset_fill_held s.drawReply.1
    have hlen := s.stbuf.bufReset_fill_len s.drawReply.1
    have hsend := (exec_stSlaAck hs).trans (sendSlave_first hheld hlen (Buf.fill_cur ..))
    rw [State.drawReply_outlog] at hsend
    obtain ⟨_, hget⟩ := Buf.held_get hheld
    refine ⟨_, _, _, hsend, rfl, Buf.fill_cap .., hlen, rfl, rfl, ?_, fun i hi => ?_, fun i hi => ?_⟩
    · exact headD_take ..
    · exact (hget i (by rwa [hlen])).trans (List.getElem?_take_of_lt (by omega))
    · exact Buf.fill_read_other _ (.inr (by rwa [hlen]))
  · exact exec_event_unexpected (cls := .stSlaAck) (d := 0) (by simp [acceptedIn, hs])

/-- Settles O47: ST_DATA_ACK is a slave send, of the next byte or of the sentinel. -/
theorem slaveTransmitSendsNext : Obligations.SlaveTransmitSendsNext := by
  refine fun s => ⟨fun b hs ha hlt hb => ?_, fun hs ha hend => ?_, fun hs ha => ?_, fun hs => ?_⟩
  · rw [exec_stDataAck hs ha, sendSlave_unsent hlt hb, State.emit_armFor]
  · exact (exec_stDataAck hs ha).trans (sendSlave_sentinel (Nat.not_lt.mpr hend))
  · exact exec_event_mismatch (cls := .stDataAck) (d := 0) hs (by simp [acceptedIn]) ha rfl
  · exact exec_event_unexpected (cls := .stDataAck) (d := 0) (by simp [acceptedIn, hs])

/-- Settles O48: both classes are accepted in ST only, and only ST_LAST_DATA looks at the latch. -/
theorem slaveTransmitEndReleases : Obligations.SlaveTransmitEndReleases := by
  refine fun s => ⟨fun hs => ?_, fun hs ha => ?_, fun hs ha => ?_, fun hs => ⟨?_, ?_⟩⟩
  · exact exec_event_unlatched (cls := .stDataNack) (d := 0) (by simp [acceptedIn, hs]) rfl
  · exact exec_stLastData hs ha
  · exact exec_event_mismatch (cls := .stLastData) (d := 0) hs (by simp [acceptedIn]) ha rfl
  · exact exec_event_unexpected (cls := .stDataNack) (d := 0) (by simp [acceptedIn, hs])
  · exact exec_event_unexpected (cls := .stLastData) (d := 0) (by simp [acceptedIn, hs])

/-! ## Whole transactions -/

/-- Settles O57: the receive begins empty, stores what fits, discards the rest, and notifies what it holds. -/
theorem slaveReceiveNotifiesWhatFits : Obligations.SlaveReceiveNotifiesWhatFits := by
  intro s bs more hs hcap hfits hmore
  obtain ⟨t, hbegin, ht⟩ := exec_srSlaAck_receiving hs hcap
  obtain ⟨u, hstore, hu⟩ := ht.storeAll (bs := bs) (by simpa using hfits)
  obtain ⟨v, hdiscard, hv⟩ := hu.discardAll (bs := more) hmore
  refine ⟨(v.notify bs).finish .release, ?_, rfl, hv.err, ?_, hv.held, ?_⟩
  · rw [execAll_cons _ hbegin, execAll_append _ hstore, execAll_append _ hdiscard]
    exact execAll_cons [] (exec_srStop hv.state hv.held)
  · rw [State.finish_notifylog, State.notify_notifylog, hv.notifylog]
  · rw [State.finish_buslog, State.notify_buslog, List.length_append, hv.buslog, List.length_singleton]
    omega

/-- Settles O58: the transmit sends from the buffer that the listed answer fills, of which nothing is sent. -/
theorem slaveTransmitSendsInOrder : Obligations.SlaveTransmitSendsInOrder := by
  intro s bs last rest hs htx hfits
  have hbegin := exec_stSlaAck hs
  rw [State.drawReply_listed htx] at hbegin
  refine execAll_slaveTransmit hbegin [] bs last rfl ?_ (Buf.fill_cur ..)
  rw [Buf.bufReset_fill_held, List.take_of_length_le (by simpa using hfits)]
  rfl

end Sys2Proof.Machine
end

section
/-! PROOFS, 43_transaction_api.md. FG's turn, in and outside a waiting command (R80, R82), and the seven commands
(R84 to R90): the words the faults carry, then each command branch by branch. -/

namespace Sys2Proof.Machine

section
variable {s : State}

/-! ## FG's turn (R80, R82) -/

/-- Outside a waiting command FG's turn runs the command its next word decodes to. -/
theorem fgTurn_decoded {c : CommandWord} {i : Instr} (hp : s.fgPhase = .idle) (hc : s.program[s.fpc]? = some c)
    (hd : decodeCommand c = .ok i) : fgTurn s = exec i s := by
  simp only [fgTurn, hp, issue, hc, hd]

/-- Inside a waiting command FG's turn is the completion step. -/
theorem fgTurn_waiting (hp : s.fgPhase ≠ .idle) : fgTurn s = complete s := by
  rcases fgTurn_cases s with ⟨hidle, _⟩ | ⟨_, _, hidle, _⟩ | ⟨_, hidle, _⟩ | ⟨_, hturn⟩
  case inr.inr.inr => exact hturn
  all_goals exact absurd hidle hp

theorem complete_notReady (hs : s.state ≠ .ready) : complete s = .next s := if_pos hs

theorem complete_waitWrite (hp : s.fgPhase = .waitWrite) (hs : s.state = .ready) :
    complete s = .next { State.respond (codeByte s.err.code) s with fgPhase := .idle } := by
  simp only [complete, hs, hp, ne_eq, not_true, if_false]

theorem complete_waitRead (hp : s.fgPhase = .waitRead) (hs : s.state = .ready) :
    complete s = .next { State.respond (countByte s.mbuf.len) s with fgPhase := .idle } := by
  simp only [complete, hs, hp, ne_eq, not_true, if_false]

/-! ## The words of the commands (R37, R38)

A fault's info is the command word, which the statements write out as an `or` of its fields. -/

/-- A packed word is the `or` of its fields, each shifted to its place: no two fields share a bit. -/
theorem packCommand_eq_or (op : BitVec 4) (w : Bool) (addr : BusAddr) (imm : Byte) :
    packCommand op w addr imm =
      op.zeroExtend 24 <<< 20 ||| (BitVec.ofBool w).zeroExtend 24 <<< 19 ||| addr.zeroExtend 24 <<< 8 |||
        imm.zeroExtend 24 := by
  refine BitVec.eq_of_getLsbD_eq fun i hi => ?_
  rw [packCommand_getLsbD]
  interval_cases i <;> simp

theorem queueByteWord_eq_or (b : Byte) : queueByteWord b = 0x300000 ||| b.zeroExtend 24 :=
  packCommand_eq_or 3 false 0 b

theorem requestReadWord_eq_or (addr : BusAddr) (n : Byte) :
    requestReadWord addr n = 0x500000 ||| addr.zeroExtend 24 <<< 8 ||| n.zeroExtend 24 :=
  packCommand_eq_or 5 false addr n

theorem endWriteWord_eq (wait : Bool) : endWriteWord wait = if wait then 0x480000 else 0x400000 := by
  cases wait <;> rfl

/-! ## `QUEUE_BYTE` (R86) -/

/-- The response of `QUEUE_BYTE` is 0x01 exactly when the master buffer has no room. -/
theorem fullByte_bufWrite (B : Buf) (b : Byte) :
    fullByte (B.bufWrite b).2 = if B.len < B.cap then 0x00 else 0x01 := by
  by_cases hroom : B.len < B.cap
  · rw [Buf.bufWrite_room b hroom, if_pos hroom]; rfl
  · rw [Buf.bufWrite_full b hroom, if_neg hroom]; rfl

theorem exec_queueByte_open (hw : s.wrOpen = true) (b : Byte) :
    exec (.queueByte b) s =
      .next (State.respond (if s.mbuf.len < s.mbuf.cap then 0x00 else 0x01)
        { s with mbuf := (s.mbuf.bufWrite b).1 }) := by
  rw [← fullByte_bufWrite s.mbuf b]
  exact if_neg (by simp [hw])

theorem exec_queueByte_outsideWrite (hw : s.wrOpen = false) (b : Byte) :
    exec (.queueByte b) s = .next { s with fault := some (.queueOutsideWrite (queueByteWord b)) } :=
  if_pos hw

/-! ## `END_WRITE` (R87) -/

/-- The fields that starting a write leaves. -/
theorem State.startWrite_eq (s : State) :
    s.startWrite = { s with
      wrOpen := false, err := .none, sla := s.tgt ++ 0#1, mbuf := { s.mbuf with cur := 0 }, state := .mt
      ackEn := true, outlog := s.outlog ++ [.bus .start none] } := by
  rw [State.startWrite, slaByte_append]; rfl

theorem exec_endWrite_withoutBegin (hw : s.wrOpen = false) (wait : Bool) :
    exec (.endWrite wait) s = .next { s with fault := some (.endWithoutBegin (endWriteWord wait)) } :=
  if_pos hw

theorem exec_endWrite_notStarted (hw : s.wrOpen = true) (he : s.enabled = false) (wait : Bool) :
    exec (.endWrite wait) s = .next { s with fault := some (.notStarted (endWriteWord wait)) } := by
  simp [exec, execEndWrite, hw, he, raise]

theorem exec_endWrite_held (hw : s.wrOpen = true) (he : s.enabled = true) (hs : s.state ≠ .ready) (wait : Bool) :
    exec (.endWrite wait) s = .next s := by
  simp [exec, execEndWrite, hw, he, hs, hold]

theorem exec_endWrite_wait (hw : s.wrOpen = true) (he : s.enabled = true) (hs : s.state = .ready) :
    exec (.endWrite true) s = .next { s.startWrite with fgPhase := .waitWrite } := by
  simp [exec, execEndWrite, hw, he, hs]

theorem exec_endWrite_nowait (hw : s.wrOpen = true) (he : s.enabled = true) (hs : s.state = .ready) :
    exec (.endWrite false) s = .next (State.respond s.startWrite.drawByte.1 s.startWrite.drawByte.2) := by
  simp [exec, execEndWrite, hw, he, hs]

/-! ## `REQUEST_READ` (R88) -/

/-- The fields that starting a read leaves. -/
theorem State.startRead_eq (addr : BusAddr) (k : Nat) (s : State) :
    s.startRead addr k = { s with
      err := .none, sla := addr ++ 1#1, mrWant := k, state := .mr, ackEn := true
      outlog := s.outlog ++ [.bus .start none], fgPhase := .waitRead } := by
  rw [State.startRead, slaByte_append]; rfl

variable (addr : BusAddr) {n : Byte}

theorem exec_requestRead_insideWrite (hw : s.wrOpen = true) :
    exec (.requestRead addr n) s = .next { s with fault := some (.readInsideWrite (requestReadWord addr n)) } :=
  if_pos hw

theorem exec_requestRead_notStarted (hw : s.wrOpen = false) (hk : 0 < clampCount n s.mbuf.cap)
    (he : s.enabled = false) :
    exec (.requestRead addr n) s = .next { s with fault := some (.notStarted (requestReadWord addr n)) } := by
  simp [exec, execRequestRead, hw, hk, he, raise]

/-- A read of no byte needs no enabled bus (R88). -/
theorem exec_requestRead_held (hw : s.wrOpen = false) (hk : clampCount n s.mbuf.cap = 0 ∨ s.enabled = true)
    (hs : s.state ≠ .ready) : exec (.requestRead addr n) s = .next s := by
  have hstarted : ¬ (0 < clampCount n s.mbuf.cap ∧ s.enabled = false) := by
    rcases hk with hk | he
    · simp [hk]
    · simp [he]
  simp [exec, execRequestRead, hw, hstarted, hs, hold]

theorem exec_requestRead_nothing (hw : s.wrOpen = false) (hk : clampCount n s.mbuf.cap = 0)
    (hs : s.state = .ready) :
    exec (.requestRead addr n) s = .next (State.respond 0x00 { s with mbuf := s.mbuf.bufReset }) := by
  simp [exec, execRequestRead, hw, hk, hs]

theorem exec_requestRead_started (hw : s.wrOpen = false) (hk : 0 < clampCount n s.mbuf.cap)
    (he : s.enabled = true) (hs : s.state = .ready) :
    exec (.requestRead addr n) s =
      .next (State.startRead addr (clampCount n s.mbuf.cap) { s with mbuf := s.mbuf.bufReset }) := by
  simp [exec, execRequestRead, hw, he, hs, Nat.ne_of_gt hk]

/-! ## `NEXT_BYTE` (R90) -/

/-- Outside a master transaction `NEXT_BYTE` responds what `BufRead` answers. -/
theorem exec_nextByte_read {v : Byte} {B : Buf} (hmt : s.state ≠ .mt) (hmr : s.state ≠ .mr)
    (hB : s.mbuf.bufRead = some (v, B)) : exec .nextByte s = .next (State.respond v { s with mbuf := B }) := by
  simp [exec, execNextByte, hmt, hmr, hB]

end

/-! ## Steps and turns -/

/-- Settles O16: a draw of the turn writes none of the fields FG's turn reads. -/
theorem stepRunsDecodedCommand : Obligations.StepRunsDecodedCommand := by
  intro s c i hs ha hp hc hd
  rw [step_fg hs ha]
  exact fgTurn_decoded (by simpa using hp) (by simpa using hc) hd

/-- Settles O19: inside a waiting command FG's turn is the completion step, and a draw of the turn writes none of the
fields it reads. -/
theorem waitingCommandCompletes : Obligations.WaitingCommandCompletes := by
  intro s hs ha
  rw [step_fg hs ha]
  refine ⟨fun hp hstate => ?_, fun hp hstate => ?_, fun hp hstate => ?_⟩
  · rw [fgTurn_waiting (by simpa using hp), complete_notReady (by simpa using hstate)]
  · rw [fgTurn_waiting (by simp [hp]), complete_waitWrite (by simpa using hp) (by simpa using hstate)]
    simp [State.respond, codeByte]
  · rw [fgTurn_waiting (by simp [hp]), complete_waitRead (by simpa using hp) (by simpa using hstate)]
    simp [State.respond, countByte]

/-! ## The commands -/

/-- Settles O24: START_BUS looks at the state alone. -/
theorem startBusEnablesBus : Obligations.StartBusEnablesBus :=
  fun _ => ⟨fun hs => if_neg (not_not.mpr hs), fun hs => if_pos hs⟩

/-- Settles O25: BEGIN_WRITE looks at the state alone. -/
theorem beginWriteOpensWrite : Obligations.BeginWriteOpensWrite :=
  fun _ _ => ⟨fun hs => if_neg (not_not.mpr hs), fun hs => if_pos hs⟩

/-- Settles O26: the byte is stored by `BufWrite`, whose `full` is the response. -/
theorem queueByteAppends : Obligations.QueueByteAppends := by
  refine fun s b => ⟨fun hw => ?_, fun hw => ?_⟩
  · exact ⟨_, exec_queueByte_open hw b, Buf.bufWrite_appended .., rfl⟩
  · rw [exec_queueByte_outsideWrite hw, queueByteWord_eq_or]

/-- Settles O27: the two checks, the hold and the start in the order END_WRITE takes them. -/
theorem endWriteStartsTransmit : Obligations.EndWriteStartsTransmit := by
  intro s wait
  rw [← endWriteWord_eq]
  refine ⟨fun hw => ?_, fun hw he => ?_, fun hw he hs => ?_, fun hw he hs hwait => ?_, fun hw he hs hwait => ?_⟩
  · exact exec_endWrite_withoutBegin hw wait
  · exact exec_endWrite_notStarted hw he wait
  · exact exec_endWrite_held hw he hs wait
  · rw [hwait, exec_endWrite_wait hw he hs, State.startWrite_eq]
  · refine ⟨s.startWrite.drawByte.1, ?_⟩
    rw [hwait, exec_endWrite_nowait hw he hs, State.startWrite_eq]
    simp [State.drawByte, State.respond]

/-- Settles O28: the two checks, the hold, the read of no byte and the start in the order REQUEST_READ takes them. -/
theorem requestReadStartsReceive : Obligations.RequestReadStartsReceive := by
  intro s addr n k word
  have hword : requestReadWord addr n = word := requestReadWord_eq_or addr n
  rw [← hword]
  refine ⟨fun hw => ?_, fun hw hk he => ?_, fun hw hk hs => ?_, fun hw hk hs => ?_, fun hw hk he hs => ?_⟩
  · exact exec_requestRead_insideWrite addr hw
  · exact exec_requestRead_notStarted addr hw hk he
  · exact exec_requestRead_held addr hw hk hs
  · exact exec_requestRead_nothing addr hw hk hs
  · rw [exec_requestRead_started addr hw hk he hs, State.startRead_eq]
    rfl

/-- Settles O29: outside MT and MR the response is `BufAvail`. -/
theorem availableCountsUnread : Obligations.AvailableCountsUnread :=
  fun _ => ⟨fun hmt hmr => if_neg (not_or.mpr ⟨hmt, hmr⟩), fun hrace => if_pos hrace⟩

/-- Settles O30: outside MT and MR the response is `BufRead`'s, of the next byte or of the sentinel. -/
theorem nextByteDrains : Obligations.NextByteDrains := by
  refine fun s => ⟨fun v hmt hmr hlt hb => ?_, fun hmt hmr hend => ?_, fun hrace => ?_⟩
  · exact exec_nextByte_read hmt hmr (Buf.bufRead_next hlt hb)
  · exact exec_nextByte_read hmt hmr (Buf.bufRead_sentinel (Nat.not_lt.mpr hend))
  · exact if_pos hrace

end Sys2Proof.Machine
end

section
/-! PROOFS, 44_register_adapter.md. `QUEUE_BYTES` run command by command (R94), and the words of the register
expansions (R95, R96). -/

namespace Sys2Proof.Machine

/-! ## `QUEUE_BYTES` (R94) -/

/-- On an open write `QUEUE_BYTES` fills the master buffer, and FG receives 0x00 for each byte there is room for and
0x01 for each of the rest. -/
theorem execAll_queueBytes {s : State} (bs : List Byte) (hw : s.wrOpen = true) (hlen : s.mbuf.len ≤ s.mbuf.cap) :
    ∃ t, execAll (queueBytes bs) s = .next t ∧ t.mbuf = s.mbuf.fill bs ∧
      t.responses = s.responses ++
        (List.replicate (min bs.length (s.mbuf.cap - s.mbuf.len)) 0x00 ++
          List.replicate (bs.length - (s.mbuf.cap - s.mbuf.len)) 0x01) := by
  induction bs generalizing s with
  | nil => exact ⟨s, rfl, rfl, by simp⟩
  | cons b bs ih =>
    have hb := exec_queueByte_open hw b
    have hfit : (s.mbuf.bufWrite b).1.len ≤ (s.mbuf.bufWrite b).1.cap := by
      rw [Buf.bufWrite_len, Buf.bufWrite_cap]; split <;> omega
    obtain ⟨t, hrun, hbuf, hresp⟩ := ih
      (s := State.respond (if s.mbuf.len < s.mbuf.cap then 0x00 else 0x01)
        { s with mbuf := (s.mbuf.bufWrite b).1 }) hw hfit
    refine ⟨t, (execAll_cons _ hb).trans hrun, hbuf, hresp.trans ?_⟩
    by_cases hroom : s.mbuf.len < s.mbuf.cap
    · have hleft : s.mbuf.cap - s.mbuf.len = s.mbuf.cap - (s.mbuf.len + 1) + 1 := by omega
      simp [State.responses, Buf.bufWrite_len, hroom, hleft, List.replicate_succ]
    · have hleft : s.mbuf.cap - s.mbuf.len = 0 := by omega
      simp [State.responses, Buf.bufWrite_len, hroom, hleft, List.replicate_succ]

/-- Settles O59: the buffer that the bytes fill holds what was held and the bytes that fit. -/
theorem queueBytesStoresWhatFits : Obligations.QueueBytesStoresWhatFits := by
  intro s bs old hw hlen hheld
  obtain ⟨t, hrun, hbuf, hresp⟩ := execAll_queueBytes bs hw hlen
  exact ⟨t, hrun, hbuf ▸ Buf.fill_held bs hlen hheld, hresp⟩

/-! ## The register expansions (R95, R96) -/

theorem beginWriteWord_eq_or (addr : BusAddr) : beginWriteWord addr = 0x200000 ||| addr.zeroExtend 24 <<< 8 :=
  (packCommand_eq_or 2 false addr 0).trans BitVec.or_zero

/-- The word that requests one byte. -/
theorem requestReadWord_one (addr : BusAddr) : requestReadWord addr 1 = 0x500001 ||| addr.zeroExtend 24 <<< 8 := by
  rw [requestReadWord_eq_or, BitVec.or_assoc, BitVec.or_comm (addr.zeroExtend 24 <<< 8), ← BitVec.or_assoc]
  rfl

theorem commandWords_writeRegister (P : BusAddr) (r v : Byte) :
    commandWords (writeRegister P r v) =
      [beginWriteWord P, queueByteWord r, queueByteWord v, endWriteWord true] := rfl

theorem commandWords_readRegister (P : BusAddr) (r : Byte) :
    commandWords (readRegister P r) =
      [beginWriteWord P, queueByteWord r, endWriteWord true, requestReadWord P 1, nextByteWord] := rfl

/-- Settles O60: the expansions are the commands' words, each the `or` of its fields. -/
theorem adapterExpansionWords : Obligations.AdapterExpansionWords := by
  refine ⟨fun P r v => ?_, fun P r => ?_⟩
  · rw [commandWords_writeRegister, beginWriteWord_eq_or, queueByteWord_eq_or, queueByteWord_eq_or, endWriteWord_eq]
    rfl
  · rw [commandWords_readRegister, beginWriteWord_eq_or, queueByteWord_eq_or, endWriteWord_eq, requestReadWord_one]
    rfl

end Sys2Proof.Machine
end

section
/-! PROOFS, 60_exceptions.md. The two stops of a step (R101). -/

namespace Sys2Proof.Machine

section
variable {s : State}

/-! ## The stops (R101, log 4) -/

/-- A fault record stops the step, whatever the refusal record holds. -/
theorem step_of_fault {r : FaultRecord} (hf : s.fault = some r) : step s = .fault (.stopped r) := by
  simp only [step, runStep, hf]

/-- A refusal record stops the step where no fault record does. -/
theorem step_of_refused {r : RefusalRecord} (hf : s.fault = none) (hr : s.refused = some r) :
    step s = .refused (.stopped r) := by
  simp only [step, runStep, hf, hr]

end

/-- Settles O5: a raise and a refuse write their record, and the step looks at the fault record first, then at the
refusal record, and only then draws a turn. -/
theorem recordStopsEveryStep : Obligations.RecordStopsEveryStep :=
  ⟨fun _ _ => raise_next.mpr rfl, fun _ _ => refuse_next.mpr rfl, fun _ _ => step_of_fault, fun _ _ => step_of_refused⟩

end Sys2Proof.Machine
end

section
/-! PROOFS, 70_reset_and_hazards.md. What reset leaves, and that no step from a state of the invariant meets an unset
byte (R112, R113). -/

namespace Sys2Proof.Machine

/-! ## Reset (R112) -/

/-- The three buffers are the same at reset: empty, with the default capacity (D9). -/
theorem State.reset_buf (sp : Space) : State.reset.buf sp = Buf.empty 32 := by cases sp <;> rfl

/-- An empty buffer of a legal capacity is as R20 and R56 have it: it holds no byte that could be unset. -/
theorem Buf.empty_ok {cap : Nat} (hcap : 1 ≤ cap ∧ cap ≤ 32) : (Buf.empty cap).Ok where
  canonical := rfl
  inside    := by simp [Buf.empty]
  capacity  := hcap
  cursor    := Nat.le_refl 0
  length    := Nat.zero_le cap
  written   := by simp [Buf.empty]

/-- Settles O1: the registers by their reset values, the buffers by what an empty buffer holds. -/
theorem resetLeavesStatedValues : Obligations.ResetLeavesStatedValues := by
  refine ⟨rfl, rfl, rfl, rfl, rfl, rfl, rfl, rfl, rfl, rfl, rfl, rfl, fun sp => ?_, fun sp i => ?_⟩
  · rw [State.reset_buf]
    exact ⟨rfl, rfl, rfl⟩
  · rw [State.readByte, State.reset_buf]
    rfl

/-- Settles O2: the buffers are empty, and in READY with FG idle nothing is asked of a transaction or of a wait. -/
theorem resetMeetsInvariant : Obligations.ResetMeetsInvariant :=
  have hempty : (Buf.empty 32).Ok := Buf.empty_ok (by decide)
  { mbuf := hempty
    capM := rfl
    srbuf := hempty
    stbuf := hempty
    errLegal := by decide
    oneRecord := .inl rfl
    busyEnabled := by decide
    inFlight := by decide
    writeSla := by decide
    readSla := by decide
    reading := by decide
    wantBound := by decide
    waiting := by decide
    waitWrite := by decide
    waitRead := by decide
    slaveRx := by decide
    slaveTx := by decide }

section
variable {s : State}

/-! ## The reads of a buffer whose held bytes are written (R113) -/

theorem Buf.Ok.bufRead_answers {B : Buf} (h : B.Ok) : ∃ b B', B.bufRead = some (b, B') :=
  Buf.bufRead_answers (h.written B.cur)

theorem Buf.Ok.held_answers {B : Buf} (h : B.Ok) : ∃ bytes, B.held = some bytes := by
  obtain ⟨bytes, hheld, _⟩ := Memory.readRange_isSome (m := B.data) (i := 0) (n := B.len)
    fun i _ hi => h.written i (by omega)
  exact ⟨bytes, hheld⟩

theorem sendMaster_answers (h : s.mbuf.Ok) : ∃ t, sendMaster s = .next t := by
  obtain ⟨b, B, hread⟩ := h.bufRead_answers
  simp only [sendMaster, hread]
  split <;> exact ⟨_, rfl⟩

theorem sendSlave_answers (h : s.stbuf.Ok) : ∃ t, sendSlave s = .next t := by
  obtain ⟨b, B, hread⟩ := h.bufRead_answers
  simp only [sendSlave, hread]
  exact ⟨_, rfl⟩

/-! ## Every turn answers -/

/-- Of the commands only `NEXT_BYTE` reads a buffer (R90); every branch of the others is a next state. -/
theorem exec_command_answers (h : s.mbuf.Ok) (op : CommandOp) (c : CommandWord) :
    ∃ t, exec (op.instr c) s = .next t := by
  cases op <;> simp only [CommandOp.instr, exec]
  case startBus => unfold execStartBus; split <;> exact ⟨_, rfl⟩
  case beginWrite => unfold execBeginWrite; split <;> exact ⟨_, rfl⟩
  case queueByte => unfold execQueueByte; split <;> exact ⟨_, rfl⟩
  case endWrite => unfold execEndWrite; split_ifs <;> exact ⟨_, rfl⟩
  case requestRead => unfold execRequestRead; split_ifs <;> exact ⟨_, rfl⟩
  case available => unfold execAvailable; split <;> exact ⟨_, rfl⟩
  case nextByte =>
    obtain ⟨v, B, hread⟩ := h.bufRead_answers
    simp only [execNextByte, hread]
    split <;> exact ⟨_, rfl⟩

theorem complete_answers (s : State) : ∃ t, complete s = .next t := by
  unfold complete
  split
  · exact ⟨_, rfl⟩
  · split <;> exact ⟨_, rfl⟩

/-- The rules that read a buffer are the sends and the end of a slave receive; ST_SLA_ACK reads what it has just filled
(R77). -/
theorem eventRule_answers (h : s.Inv) (cls : EventClass) (d : Byte) : ∃ t, eventRule cls d s = .next t := by
  cases cls
  case mtSlaAck | mtDataAck => exact sendMaster_answers h.mbuf
  case srStop =>
    obtain ⟨bytes, hheld⟩ := h.srbuf.held_answers
    simp only [eventRule, hheld]
    exact ⟨_, rfl⟩
  case stSlaAck => exact sendSlave_answers (h.drawReply.stbuf.bufReset.fill _)
  case stDataAck => exact sendSlave_answers h.stbuf
  all_goals exact ⟨_, rfl⟩

/-- A delivered event runs its rule or raises a fault, which is a next state too (R58, R101). -/
theorem exec_event_answers (h : s.Inv) (cls : EventClass) (d : Byte) : ∃ t, exec (cls.instr d) s = .next t := by
  rw [exec_event]
  rcases dispatch_cases cls (eventRule cls d) s with ⟨_, _, hd⟩ | ⟨_, hd⟩ | ⟨_, _, hd⟩ <;> rw [hd]
  · exact eventRule_answers h cls d
  · exact ⟨_, raise_next.mpr rfl⟩
  · exact ⟨_, raise_next.mpr rfl⟩

theorem fgTurn_answers (h : s.Inv) : ∃ t, fgTurn s = .next t := by
  rcases fgTurn_cases s with ⟨_, _, hf⟩ | ⟨c, i, _, _, hd, hf⟩ | ⟨c, _, _, hf⟩ | ⟨_, hf⟩ <;> rw [hf]
  · exact ⟨_, rfl⟩
  · obtain ⟨r, _, _, rfl⟩ := decodeCommand_ok hd
    exact exec_command_answers h.mbuf r.op c
  · exact ⟨_, raise_next.mpr rfl⟩
  · exact complete_answers s

theorem periphTurn_answers (h : s.Inv) : ∃ t, periphTurn s = .next t := by
  rcases periphTurn_cases s with ⟨_, hf⟩ | ⟨e, rest, i, _, _, hd, hf⟩ | ⟨e, rest, _, _, hf⟩ <;> rw [hf]
  · exact ⟨_, rfl⟩
  · obtain ⟨cls, _, rfl⟩ := decodeEvent_ok hd
    have hconsumed : { s with events := rest }.Inv := { h with }
    exact exec_event_answers hconsumed cls e.data
  · exact ⟨_, refuse_next.mpr rfl⟩

end

/-- Settles O4: with no record the step is the turn drawn, FG's or PERIPH's, and the draw keeps the invariant, under
which each answers. -/
theorem stepAnswersUnderInvariant : Obligations.StepAnswersUnderInvariant := by
  intro s h hc
  cases ha : s.drawTurn.1 with
  | fg => rw [step_fg hc ha]; exact fgTurn_answers h.drawTurn
  | periph => rw [step_periph hc ha]; exact periphTurn_answers h.drawTurn

end Sys2Proof.Machine
end
